-- ==== Sys2Proof/Word.lean ====
section
/-! DEFINITION. The word types of the MD5 engine (spec/00_scope.md R7, R8) and the groups of four words and of four
bytes that its rules speak of. Every word is unsigned; bit 0 is the least significant bit. -/

namespace Sys2Proof

/-- A word: 32 bits, `+` is addition modulo `2^32` (00_scope.md R8, R9; 42_round_datapath.md R150). -/
abbrev Word := BitVec 32

/-- A byte (00_scope.md R8). -/
abbrev Byte := BitVec 8

/-- A command word of the command port (30_encoding.md R71). -/
abbrev CommandWord := BitVec 16

/-- A micro-operation control word `{ST[3:0], RND[5:0]}` (30_encoding.md R84). -/
abbrev ControlWord := BitVec 10

/-- Four words A, B, C, D: a hash state or a local state (10_state.md R21, R24). -/
structure Quad where
  a : Word
  b : Word
  c : Word
  d : Word
  deriving DecidableEq, Repr

/-- Four independent additions modulo `2^32`; no carry passes from one word to the next
(43_accumulator_serializer.md R181, corner cases). -/
def Quad.add (x y : Quad) : Quad := ⟨x.a + y.a, x.b + y.b, x.c + y.c, x.d + y.d⟩

end Sys2Proof
end

