-- ==== Sys2Proof/Config.lean ====
section
/-! DEFINITION. What is fixed for the engine, and the values the spec leaves open. The engine takes no configuration
argument (00_scope.md R7); its constant tables stand in Machine/Datapath.lean. -/

namespace Sys2Proof

/-- FREE VALUE (DESIGN CHOICE, notes/assumptions/4.md, unsafe). `resetWord n k` is what data register `k` holds after
reset event number `n`: `k` is 0 to 3 for `HA` to `HD` and 4 to 7 for `WA` to `WD`. The spec leaves these values
unspecified (10_state.md R39) and forbids zero and any one chosen value (93_implementation_defined.md U4), so the
constant has no body: nothing can be proved of its value. -/
opaque Config.resetWord : Nat → Nat → Word

/-- FREE VALUE (DESIGN CHOICE, notes/assumptions/19.md, safe). `overlongByte len k` is byte `k` of the length field of a
message of `len` bytes, `len` over `2^61 - 1`. The spec pads no such message (40_padding.md R100, R108) and forbids a
wrapped length (93_implementation_defined.md U3), so the constant has no body. The engine never reads it. -/
opaque Config.overlongByte : Nat → Nat → Byte

/-- The largest message length in bytes, `2^61 - 1` (00_scope.md R6; 90_conflicts.md C2). -/
def Config.maxLength : Nat := 2 ^ 61 - 1

end Sys2Proof
end

