-- ==== Sys2Proof/Machine/State.lean ====
section
/-! DEFINITION. The state of one engine (10_state.md R20): sixteen elements, and beside them the host's inputs and the
responses, which the step of this model needs as plain data. -/

namespace Sys2Proof.Machine

/-- The sequencer states (10_state.md R27). Codes 10 to 15 are reserved: "a state with such a code is not a state of the
engine" (93_implementation_defined.md U5), so there is no constructor for one. -/
inductive SeqState where
  | idle
  | absorb
  | pad80
  | padzero
  | padlen
  | cload
  | round
  | cadd
  | done
  | fault
  deriving DecidableEq, Repr

/-- The fault causes (10_state.md R30; 60_exceptions.md R201). "A model's cause type has five values"
(93_implementation_defined.md U6). -/
inductive Cause where
  | none
  | lengthOverflow
  | illegalCommand
  | sequenceError
  | alignAssert
  deriving DecidableEq, Repr

/-- The block buffer: its written bytes in strictly rising order of index. A byte that is not listed has no value
(10_state.md R37, R39; notes/assumptions/6.md, safe). -/
abbrev Memory := List Host.Cell

/-- One input of the host (30_encoding.md R70, R72; 70_reset_and_hazards.md R230, R235; DESIGN CHOICE,
notes/assumptions/2.md, safe). -/
inductive HostEvent where
  /-- Present `w` until the engine accepts it. -/
  | hold (w : CommandWord)
  /-- Present `w` for one step: it is accepted if the engine is ready, else the host withdraws it. -/
  | offer (w : CommandWord)
  /-- Present nothing for one step. -/
  | quiet
  /-- Assert the reset input: the next step is the reset event. -/
  | reset
  deriving DecidableEq, Repr

/-- The response to one accepted command, `rsp(f, d)` (00_scope.md R10; 30_encoding.md R73). -/
structure Response where
  fault : Bool
  data : BitVec 16
  deriving DecidableEq, Repr

/-- The state: the sixteen elements of 10_state.md R20 (the four words of `h` and of `w` counted singly), then `host`,
`rsp` and `resets`, which are the model's own. -/
structure State where
  /-- `HA`, `HB`, `HC`, `HD` (10_state.md R21). -/
  h : Quad
  /-- `WA`, `WB`, `WC`, `WD` (10_state.md R24). -/
  w : Quad
  /-- `BUF[0..63]` (10_state.md R25). -/
  buf : Memory
  /-- `FILL`, 0 to 64 (10_state.md R32). -/
  fill : Fin 65
  /-- `LEN`, 61 bits (10_state.md R33). -/
  len : BitVec 61
  /-- `FIN` (10_state.md R29). -/
  fin : Bool
  /-- `PADK`, 0 to 8 (10_state.md R34). -/
  padk : Fin 9
  /-- `RND`, 6 bits (10_state.md R27). -/
  rnd : BitVec 6
  /-- `ST` (10_state.md R27). -/
  st : SeqState
  /-- `CAUSE` (10_state.md R30). -/
  cause : Cause
  /-- The host's inputs still to come, oldest first (notes/assumptions/2.md). -/
  host : List HostEvent
  /-- The responses given so far, oldest first (notes/assumptions/3.md). -/
  rsp : List Response
  /-- The number of reset events so far (notes/assumptions/5.md). -/
  resets : Nat
  deriving DecidableEq, Repr

/-- Why a step stops with a fault of the MODEL. (A fault of the engine is a next state: 60_exceptions.md R206.) -/
inductive Fault where
  /-- Raised by ROUND when it reads a byte of `BUF` that nothing has written (10_state.md R37;
  93_implementation_defined.md U4: "`fault` on read of an element with no value"). Safe; never from reset. -/
  | unwrittenByte
  /-- Raised by PUSH, PAD80, PADZERO and PADLEN when `FILL` is 64, so that `BUF[FILL]` is no byte of the buffer
  (20_memory.md R50, R51). Safe; never from reset. -/
  | bufferIndex
  deriving DecidableEq, Repr

/-- Why a step is refused. -/
inductive Refusal where
  /-- An instruction without a meaning yet. No arm of `exec` answers with it. Safe. -/
  | notModelled (mnemonic : String)
  /-- A micro-operation asked for in a state that does not enable it (30_encoding.md R84). `step` never asks so but for
  PADLEN with `PADK = 8`, which no state reached from reset holds (40_padding.md R107). Safe. -/
  | notEnabled
  /-- The control word of a busy state selects no micro-operation (30_encoding.md R84). Never raised: proved in
  Laws. Safe. -/
  | noMicroOperation
  deriving DecidableEq, Repr

/-- The hash state after reset event `n` (notes/assumptions/4.md). -/
def resetHash (n : Nat) : Quad :=
  ⟨Config.resetWord n 0, Config.resetWord n 1, Config.resetWord n 2, Config.resetWord n 3⟩

/-- The local state after reset event `n` (notes/assumptions/4.md). -/
def resetLocal (n : Nat) : Quad :=
  ⟨Config.resetWord n 4, Config.resetWord n 5, Config.resetWord n 6, Config.resetWord n 7⟩

/-- The engine right after reset (10_state.md R39), with an empty script of inputs and no response yet. -/
def State.reset : State where
  h := resetHash 0
  w := resetLocal 0
  buf := []
  fill := 0
  len := 0
  fin := false
  padk := 0
  rnd := 0
  st := .idle
  cause := .none
  host := []
  rsp := []
  resets := 0

end Sys2Proof.Machine
end

