-- ==== Sys2Proof/Machine/Ops.lean ====
section
/-! DEFINITION. The named operations the instructions share: the bytes of the block buffer (20_memory.md), fault entry
(60_exceptions.md R206), the response (30_encoding.md R73), the block-full rule (41_sequencer.md R126), acceptance of a
command (30_encoding.md R72) and the reset event (70_reset_and_hazards.md R230). -/

namespace Sys2Proof.Machine

/-- What an instruction's meaning answers. -/
abbrev Result := Host.Outcome State Fault Refusal

/-! ### The block buffer -/

/-- `BUF[i]`; `none` when nothing has written it (10_state.md R37). -/
def readByte : Memory → Nat → Option Byte
  | [], _ => none
  | (a, b) :: m, i => if i = a then some b else readByte m i

/-- `BUF[i] <- v`, keeping the cells in strictly rising order. -/
def writeByte : Memory → Nat → Byte → Memory
  | [], i, v => [(i, v)]
  | (a, b) :: m, i, v =>
    if i < a then (i, v) :: (a, b) :: m
    else if i = a then (i, v) :: m
    else (a, b) :: writeByte m i v

/-- The addresses rise strictly and each is over `low`. -/
def risingFrom (low : Nat) : Memory → Bool
  | [] => true
  | (a, _) :: m => decide (low ≤ a) && risingFrom (a + 1) m

/-- The canonical form of the buffer: strictly rising indices, all of them 0 to 63 (20_memory.md R50). An unlisted byte
has no value, so no listed byte equals what an unlisted one reads as. -/
def Memory.wf (m : Memory) : Bool := risingFrom 0 m && m.all (fun c => decide (c.1 < 64))

/-- The word `{b3, b2, b1, b0}` (20_memory.md R52, R54; `{a, b}` as in 00_scope.md R8). -/
def wordOfBytes (b0 b1 b2 b3 : Byte) : Word := b3 ++ b2 ++ b1 ++ b0

/-- `M[j]`, the little-endian reading of `BUF[4j..4j+3]` (20_memory.md R52); `none` when one of the four bytes has no
value. -/
def messageWord (m : Memory) (j : Nat) : Option Word :=
  match readByte m (4 * j), readByte m (4 * j + 1), readByte m (4 * j + 2), readByte m (4 * j + 3) with
  | some b0, some b1, some b2, some b3 => some (wordOfBytes b0 b1 b2 b3)
  | _, _, _, _ => none

/-! ### Responses and fault entry -/

/-- `rsp(f, d)`: the response to the command being executed (30_encoding.md R73). -/
def respond (r : Response) (s : State) : State := { s with rsp := s.rsp ++ [r] }

/-- `rsp(0, 0x0000)` (30_encoding.md R73). -/
def respondDone (s : State) : State := respond ⟨false, 0⟩ s

/-- Fault entry, the part every fault has (60_exceptions.md R206): the first cause is kept, `ST <- FAULT`, and nothing
else is written. There is no return from a fault; `INIT` writes both registers anew (60_exceptions.md R208). -/
def raise (c : Cause) (s : State) : State :=
  { s with cause := if s.cause = .none then c else s.cause, st := .fault }

/-- A fault that a command raises: fault entry and `rsp(1, 0x0000)` (60_exceptions.md R206; 30_encoding.md R73). -/
def raiseCommand (c : Cause) (s : State) : State := respond ⟨true, 0⟩ (raise c s)

/-! ### Appending a byte to the block -/

/-- `BUF[FILL] <- b; FILL <- FILL + 1`, and the block-full rule: `ST <- CLOAD` when that brings `FILL` to 64, else the
rule's ordinary next state (41_sequencer.md R126). There is no byte to write when `FILL` is 64 (20_memory.md R51,
notes/assumptions/8.md, safe). -/
def appendByte (b : Byte) (ordinary : SeqState) (s : State) : Result :=
  if h : s.fill.val < 64 then
    .next { s with
      buf := writeByte s.buf s.fill.val b
      fill := ⟨s.fill.val + 1, by omega⟩
      st := if s.fill.val + 1 = 64 then .cload else ordinary }
  else .fault .bufferIndex

/-! ### Acceptance and reset -/

/-- The sequencer states in which a command is accepted: IDLE, ABSORB, DONE, FAULT (10_state.md R28). -/
def readyState : SeqState → Bool
  | .idle => true
  | .absorb => true
  | .pad80 => false
  | .padzero => false
  | .padlen => false
  | .cload => false
  | .round => false
  | .cadd => false
  | .done => true
  | .fault => true

/-- A command takes effect only where it is accepted, in a ready state; in a busy state it waits and "the engine's state
is unaffected by its waiting" (30_encoding.md R72; notes/assumptions/10.md, safe). -/
def accepted (s : State) (effect : Result) : Result :=
  if readyState s.st then effect else .next s

/-- A command that is legal only in the state `legal`; elsewhere SEQUENCE_ERROR (30_encoding.md R81;
60_exceptions.md R204). -/
def legalIn (legal : SeqState) (s : State) (effect : Result) : Result :=
  if s.st = legal then effect else .next (raiseCommand .sequenceError s)

/-- An illegal word is accepted like any other, raises ILLEGAL_COMMAND and has no other effect (30_encoding.md R80;
60_exceptions.md R203). -/
def illegalCommand (s : State) : Result := .next (raiseCommand .illegalCommand s)

/-- The reset event (70_reset_and_hazards.md R230): every element at the value of 10_state.md R39, `H` and `W` at new
free values (notes/assumptions/4.md), `BUF` without a value. The host's waiting inputs are not consumed by it, and
what the host was told before stays told. -/
def resetEvent (s : State) : State :=
  { State.reset with
    h := resetHash (s.resets + 1)
    w := resetLocal (s.resets + 1)
    host := s.host
    rsp := s.rsp
    resets := s.resets + 1 }

end Sys2Proof.Machine
end

