-- ==== Sys2Proof/Machine/Flags.lean ====
section
/-! DEFINITION. Status: the codes of `ST` and `CAUSE`, the values derived from `ST`, the level outputs and the STATUS
register (10_state.md R27 to R31; 30_encoding.md R70). There are no condition codes (10_state.md R28). -/

namespace Sys2Proof.Machine

/-- The 4-bit code of a sequencer state (10_state.md R27). -/
def stCode : SeqState → BitVec 4
  | .idle => 0
  | .absorb => 1
  | .pad80 => 2
  | .padzero => 3
  | .padlen => 4
  | .cload => 5
  | .round => 6
  | .cadd => 7
  | .done => 8
  | .fault => 9

/-- The sequencer state of a code; `none` for the reserved codes 10 to 15 (10_state.md R27). -/
def stOfCode (c : BitVec 4) : Option SeqState :=
  match c.toNat with
  | 0 => some .idle
  | 1 => some .absorb
  | 2 => some .pad80
  | 3 => some .padzero
  | 4 => some .padlen
  | 5 => some .cload
  | 6 => some .round
  | 7 => some .cadd
  | 8 => some .done
  | 9 => some .fault
  | _ => none

/-- The 3-bit code of a fault cause (10_state.md R30; 60_exceptions.md R201). -/
def causeCode : Cause → BitVec 3
  | .none => 0
  | .lengthOverflow => 1
  | .illegalCommand => 2
  | .sequenceError => 3
  | .alignAssert => 4

/-- `ready` (10_state.md R28). -/
def State.ready (s : State) : Bool := readyState s.st

/-- `busy = ¬ready` (10_state.md R28). -/
def State.busy (s : State) : Bool := !s.ready

/-- The level output `cmd_ready = ready` (30_encoding.md R70). -/
def State.cmdReady (s : State) : Bool := s.ready

/-- The level output `done = (ST = 8)` (30_encoding.md R70). -/
def State.doneOut (s : State) : Bool := decide (s.st = .done)

/-- The level output `fault = (ST = 9)` (30_encoding.md R70). -/
def State.faultOut (s : State) : Bool := decide (s.st = .fault)

/-- STATUS, `{0, FILL[6:0], FIN, CAUSE[2:0], ST[3:0]}` (10_state.md R31; 43_accumulator_serializer.md R188). -/
def State.status (s : State) : BitVec 16 :=
  (0 : BitVec 1) ++ BitVec.ofNat 7 s.fill.val ++ BitVec.ofBool s.fin ++ causeCode s.cause ++ stCode s.st

/-- The control word `U = {ST[3:0], RND[5:0]}` that selects the next micro-operation (30_encoding.md R84). -/
def State.controlWord (s : State) : ControlWord := stCode s.st ++ s.rnd

end Sys2Proof.Machine
end

