-- ==== Sys2Proof/Syntax.lean ====
section
/-! DEFINITION. The syntax: one constructor per row of spec/opcode_table.json. Seven commands, which the host sends
(30_encoding.md R74), and nine micro-operations, which the sequencer runs on its own (30_encoding.md R84). -/

namespace Sys2Proof

/-- The commands and micro-operations of the engine. `push`, `rdb` and `rdh` carry the whole operand field `IMM`, which
is "always an unsigned 8-bit number, used as it stands" (30_encoding.md R75). A micro-operation has no operand: the
`RND` bits of its control word are read from the state (42_round_datapath.md R160). -/
inductive Instr where
  /-- NOP, 41_sequencer.md R121. -/
  | nop
  /-- INIT, 41_sequencer.md R122. -/
  | init
  /-- PUSH b, 41_sequencer.md R123. -/
  | push (b : Byte)
  /-- FINAL, 41_sequencer.md R124. -/
  | final
  /-- RDB i, 43_accumulator_serializer.md R184. -/
  | rdb (i : Byte)
  /-- RDH j, 43_accumulator_serializer.md R186. -/
  | rdh (j : Byte)
  /-- RDS, 43_accumulator_serializer.md R188. -/
  | rds
  /-- PAD80, 40_padding.md R105. -/
  | pad80
  /-- PADZERO, 40_padding.md R106. -/
  | padzero
  /-- PADLEN, 40_padding.md R107. -/
  | padlen
  /-- CLOAD, 43_accumulator_serializer.md R180. -/
  | cload
  /-- ROUND.P0, 42_round_datapath.md R161. -/
  | roundP0
  /-- ROUND.P1, 42_round_datapath.md R162. -/
  | roundP1
  /-- ROUND.P2, 42_round_datapath.md R163. -/
  | roundP2
  /-- ROUND.P3, 42_round_datapath.md R164. -/
  | roundP3
  /-- CADD, 43_accumulator_serializer.md R181. -/
  | cadd
  deriving DecidableEq, Repr

/-- The seven commands, as against the nine micro-operations (00_scope.md R11). -/
def Instr.isCommand : Instr → Bool
  | .nop => true
  | .init => true
  | .push _ => true
  | .final => true
  | .rdb _ => true
  | .rdh _ => true
  | .rds => true
  | .pad80 => false
  | .padzero => false
  | .padlen => false
  | .cload => false
  | .roundP0 => false
  | .roundP1 => false
  | .roundP2 => false
  | .roundP3 => false
  | .cadd => false

end Sys2Proof
end

