-- ==== Sys2Proof/WellFormed.lean ====
section
/-! DEFINITION. Well-formed instructions: the operand ranges of 30_encoding.md R75. -/

namespace Sys2Proof

/-- The greatest legal digest byte index (30_encoding.md R75). -/
def maxDigestIndex : Nat := 15

/-- The greatest legal hex character index (30_encoding.md R75). -/
def maxHexIndex : Nat := 31

/-- "For RDB it is the digest byte index, legal 0 to 15. For RDH it is the hex character index, legal 0 to 31"
(30_encoding.md R75); every PUSH operand is legal, and the other instructions have none. -/
def Instr.wf : Instr → Bool
  | .nop => true
  | .init => true
  | .push _ => true
  | .final => true
  | .rdb i => decide (i.toNat ≤ maxDigestIndex)
  | .rdh j => decide (j.toNat ≤ maxHexIndex)
  | .rds => true
  | .pad80 => true
  | .padzero => true
  | .padlen => true
  | .cload => true
  | .roundP0 => true
  | .roundP1 => true
  | .roundP2 => true
  | .roundP3 => true
  | .cadd => true

end Sys2Proof
end

