-- ==== Sys2Proof/Machine/Operands.lean ====
section
/-! DEFINITION. The values that operands select: the `DIGEST` and `HEX` views of the hash state (20_memory.md R50;
43_accumulator_serializer.md R183, R185, R187) and the bytes of the length field (40_padding.md R103). -/

namespace Sys2Proof.Machine

/-- `Hq`: `H0 = HA`, `H1 = HB`, `H2 = HC`, `H3 = HD` (43_accumulator_serializer.md R183). Over 3, which no rule forms, it
is `HD` (notes/assumptions/22.md). -/
def hashWord (h : Quad) (q : Nat) : Word :=
  match q with
  | 0 => h.a
  | 1 => h.b
  | 2 => h.c
  | _ => h.d

/-- `DIGEST[i] = (Hq >> (8 * (i mod 4))) mod 256`, `q = i div 4` (43_accumulator_serializer.md R183), for `i` 0 to 15
(else notes/assumptions/22.md). -/
def digestByte (h : Quad) (i : Nat) : Byte := (hashWord h (i / 4) >>> (8 * (i % 4))).setWidth 8

/-- The four bits that the `j`-th hex character renders: the high four of `DIGEST[j div 2]` when `j` is even, the low
four when it is odd (43_accumulator_serializer.md R185). -/
def hexDigit (h : Quad) (j : Nat) : BitVec 4 :=
  if j % 2 = 0 then (digestByte h (j / 2)).extractLsb' 4 4 else (digestByte h (j / 2)).extractLsb' 0 4

/-- The code of `hexchar(n)`: `0x30 + n` for 0 to 9, `0x61 + (n - 10)` for 10 to 15
(43_accumulator_serializer.md R187). -/
def hexCode (n : BitVec 4) : Byte :=
  if n.toNat < 10 then 0x30 + n.setWidth 8 else 0x61 + (n.setWidth 8 - 10)

/-- `code(HEX[j])` (43_accumulator_serializer.md R185 to R187), for `j` 0 to 31 (else notes/assumptions/22.md). -/
def hexChar (h : Quad) (j : Nat) : Byte := hexCode (hexDigit h j)

/-- Byte `k` of `LenField(L)`: `((8 * L) >> (8 * k)) mod 256`, on natural numbers (40_padding.md R103, R107), for `k` 0 to 7
(else notes/assumptions/22.md). -/
def lengthByte (len k : Nat) : Byte := BitVec.ofNat 8 ((8 * len) >>> (8 * k))

end Sys2Proof.Machine
end

