-- ==== Sys2Proof/Machine/Acc.lean ====
section
/-! DEFINITION. The accumulator and serializer (spec/43_accumulator_serializer.md): CLOAD, CADD, RDB, RDH, RDS. -/

namespace Sys2Proof.Machine

/-- CLOAD: load the local state; ALIGN_ASSERT when the block is not full (43_accumulator_serializer.md R180;
60_exceptions.md R205). A micro-operation gives no response, so neither does its fault (R206). -/
def execCload (s : State) : Result :=
  if s.st = .cload then
    if s.fill.val = 64 then .next { s with w := s.h, rnd := 0, st := .round }
    else .next (raise .alignAssert s)
  else .refused .notEnabled

/-- What follows a block (43_accumulator_serializer.md R181): ABSORB if `FIN = 0`, DONE if `FIN = 1` and `PADK = 8`,
PADZERO if `FIN = 1` and `PADK < 8`. -/
def afterBlock (s : State) : SeqState :=
  if s.fin then (if s.padk.val = 8 then .done else .padzero) else .absorb

/-- CADD: add the local state into the hash state (43_accumulator_serializer.md R181). -/
def execCadd (s : State) : Result :=
  if s.st = .cadd then .next { s with h := s.h.add s.w, fill := 0, st := afterBlock s }
  else .refused .notEnabled

/-- RDB i: read one digest byte (43_accumulator_serializer.md R184). An index over 15 is ILLEGAL_COMMAND, before the
state check (90_conflicts.md C9). -/
def execRdb (i : Byte) (s : State) : Result :=
  accepted s (
    if i.toNat ≤ maxDigestIndex then
      legalIn .done s (.next (respond ⟨false, (digestByte s.h i.toNat).setWidth 16⟩ s))
    else illegalCommand s)

/-- RDH j: read one hex character (43_accumulator_serializer.md R186). An index over 31 is ILLEGAL_COMMAND, before the
state check (90_conflicts.md C9). -/
def execRdh (j : Byte) (s : State) : Result :=
  accepted s (
    if j.toNat ≤ maxHexIndex then
      legalIn .done s (.next (respond ⟨false, (hexChar s.h j.toNat).setWidth 16⟩ s))
    else illegalCommand s)

/-- RDS: read STATUS (43_accumulator_serializer.md R188). -/
def execRds (s : State) : Result := accepted s (.next (respond ⟨false, s.status⟩ s))

end Sys2Proof.Machine
end

