-- ==== Sys2Proof/Machine/Pad.lean ====
section
/-! DEFINITION. The padding unit's micro-operations PAD80, PADZERO, PADLEN (spec/40_padding.md, section 2). -/

namespace Sys2Proof.Machine

/-- PAD80: append the marker byte (40_padding.md R105). -/
def execPad80 (s : State) : Result :=
  if s.st = .pad80 then appendByte 0x80 .padzero s else .refused .notEnabled

/-- PADZERO: append a zero byte, or go on to the length field when `FILL` is 56 (40_padding.md R106). -/
def execPadzero (s : State) : Result :=
  if s.st = .padzero then
    if s.fill.val = 56 then .next { s with st := .padlen } else appendByte 0x00 .padzero s
  else .refused .notEnabled

/-- PADLEN: append byte `PADK` of the length field (40_padding.md R107). It is enabled with `PADK` 0 to 7
(notes/assumptions/9.md, safe). -/
def execPadlen (s : State) : Result :=
  if h : s.st = .padlen ∧ s.padk.val < 8 then
    appendByte (lengthByte s.len.toNat s.padk.val) .padlen { s with padk := ⟨s.padk.val + 1, by omega⟩ }
  else .refused .notEnabled

end Sys2Proof.Machine
end

