-- ==== Sys2Proof/Decode.lean ====
section
/-! DEFINITION. Decoding of command words (30_encoding.md R71 to R82) and of micro-operation control words (R84), and
after it the encoder written from the same tables. Both decoders are total and reject by name. -/

namespace Sys2Proof

/-- Why a word is no instruction. The first five make a command word *illegal* (30_encoding.md R80); the last two say
that a control word selects no micro-operation (30_encoding.md R84). -/
inductive DecodeError where
  /-- `OP` is 7 to 15. -/
  | reservedOpcode
  /-- `RSV` is not 0. -/
  | reservedBits
  /-- `OP` is 0, 1, 3 or 6 and `IMM` is not 0. -/
  | operandNotZero
  /-- `OP` is 4 and `IMM` is over 15. -/
  | digestIndex
  /-- `OP` is 5 and `IMM` is over 31. -/
  | hexIndex
  /-- `ST` is 0, 1, 8 or 9: a ready state enables no micro-operation. -/
  | readyState
  /-- `ST` is 10 to 15: no state of the engine has such a code (10_state.md R27). -/
  | reservedState
  deriving DecidableEq, Repr

/-- `OP`, bits 15:12 of a command word (30_encoding.md R71). -/
def opField (w : CommandWord) : BitVec 4 := w.extractLsb' 12 4

/-- `RSV`, bits 11:8 of a command word (30_encoding.md R71). -/
def rsvField (w : CommandWord) : BitVec 4 := w.extractLsb' 8 4

/-- `IMM`, bits 7:0 of a command word (30_encoding.md R71). -/
def immField (w : CommandWord) : Byte := w.extractLsb' 0 8

/-- A command that takes no operand: `IMM` must be 0 (30_encoding.md R75, R80). -/
def withoutOperand (imm : Byte) (i : Instr) : Except DecodeError Instr :=
  if imm = 0 then .ok i else .error .operandNotZero

/-- A command whose operand is an index with a greatest legal value (30_encoding.md R75, R80). -/
def withIndex (imm : Byte) (greatest : Nat) (e : DecodeError) (i : Instr) : Except DecodeError Instr :=
  if imm.toNat ≤ greatest then .ok i else .error e

/-- The seven commands by `OP` (30_encoding.md R74); everything else is illegal (R80). -/
def decodeCommand (w : CommandWord) : Except DecodeError Instr :=
  if rsvField w ≠ 0 then .error .reservedBits
  else
    match (opField w).toNat with
    | 0 => withoutOperand (immField w) .nop
    | 1 => withoutOperand (immField w) .init
    | 2 => .ok (.push (immField w))
    | 3 => withoutOperand (immField w) .final
    | 4 => withIndex (immField w) maxDigestIndex .digestIndex (.rdb (immField w))
    | 5 => withIndex (immField w) maxHexIndex .hexIndex (.rdh (immField w))
    | 6 => withoutOperand (immField w) .rds
    | _ => .error .reservedOpcode

/-- `ST`, bits 9:6 of a control word (30_encoding.md R84). -/
def stField (u : ControlWord) : BitVec 4 := u.extractLsb' 6 4

/-- `RND`, bits 5:0 of a control word (30_encoding.md R84). -/
def rndField (u : ControlWord) : BitVec 6 := u.extractLsb' 0 6

/-- The phase of a round, `RND[5:4]` (30_encoding.md R84; 42_round_datapath.md R160, R167). -/
def phaseOf (rnd : BitVec 6) : BitVec 2 := rnd.extractLsb' 4 2

/-- The ROUND variant of a phase (30_encoding.md R84). -/
def roundOfPhase (p : BitVec 2) : Instr :=
  match p.toNat with
  | 0 => .roundP0
  | 1 => .roundP1
  | 2 => .roundP2
  | _ => .roundP3

/-- Micro-operation decode: by `ST`, and for ROUND by the phase (30_encoding.md R84). -/
def decodeMicro (u : ControlWord) : Except DecodeError Instr :=
  match (stField u).toNat with
  | 0 => .error .readyState
  | 1 => .error .readyState
  | 2 => .ok .pad80
  | 3 => .ok .padzero
  | 4 => .ok .padlen
  | 5 => .ok .cload
  | 6 => .ok (roundOfPhase (phaseOf (rndField u)))
  | 7 => .ok .cadd
  | 8 => .error .readyState
  | 9 => .error .readyState
  | _ => .error .reservedState

/-- The words of the two formats: `C`, a command word, and `U`, a micro-operation control word. -/
inductive Encoding where
  | command (w : CommandWord)
  | micro (u : ControlWord)
  deriving DecidableEq, Repr

/-- The instruction a word of either format stands for. -/
def decode : Encoding → Except DecodeError Instr
  | .command w => decodeCommand w
  | .micro u => decodeMicro u

/-- A command word from its three fields (30_encoding.md R71). -/
def commandWord (op : BitVec 4) (imm : Byte) : CommandWord := op ++ (0 : BitVec 4) ++ imm

/-- A control word from its two fields (30_encoding.md R84). -/
def controlWordOf (st : BitVec 4) (rnd : BitVec 6) : ControlWord := st ++ rnd

/-- The encoder. The `RND` bits that a micro-operation's row leaves open are written as zeros. -/
def encode : Instr → Encoding
  | .nop => .command (commandWord 0 0)
  | .init => .command (commandWord 1 0)
  | .push b => .command (commandWord 2 b)
  | .final => .command (commandWord 3 0)
  | .rdb i => .command (commandWord 4 i)
  | .rdh j => .command (commandWord 5 j)
  | .rds => .command (commandWord 6 0)
  | .pad80 => .micro (controlWordOf 2 0)
  | .padzero => .micro (controlWordOf 3 0)
  | .padlen => .micro (controlWordOf 4 0)
  | .cload => .micro (controlWordOf 5 0)
  | .roundP0 => .micro (controlWordOf 6 0)
  | .roundP1 => .micro (controlWordOf 6 16)
  | .roundP2 => .micro (controlWordOf 6 32)
  | .roundP3 => .micro (controlWordOf 6 48)
  | .cadd => .micro (controlWordOf 7 0)

/-- The answer of a decoder, without the reason for a rejection. -/
def acceptedInstr : Except DecodeError Instr → Option Instr
  | .ok i => some i
  | .error _ => none

/-- The instruction read from the bits of a row of spec/opcode_table.json (DESIGN CHOICE, notes/assumptions/12.md, safe). The
table has rows of two formats. Ten bits or fewer are a control word. Sixteen bits are a command word; where that is
illegal and the number fits a control word, a control word (no number below 1024 is both, but 0, which is NOP). -/
def decodeTableWord (nbits w : Nat) : Option Instr :=
  if nbits ≤ 10 then
    if w < 1024 then acceptedInstr (decodeMicro (BitVec.ofNat 10 w)) else none
  else if w < 65536 then
    match decodeCommand (BitVec.ofNat 16 w) with
    | .ok i => some i
    | .error _ => if w < 1024 then acceptedInstr (decodeMicro (BitVec.ofNat 10 w)) else none
  else none

end Sys2Proof
end

