-- ==== Sys2Proof/Machine/Datapath.lean ====
section
/-! DEFINITION. The round-compression datapath (spec/42_round_datapath.md): rotation, the four mixing functions, the
message-word schedule, the constant tables, one round, and the initial hash state. -/

namespace Sys2Proof.Machine

/-- The initial hash state `IV` (10_state.md R23). -/
def initialHash : Quad := ⟨0x67452301, 0xEFCDAB89, 0x98BADCFE, 0x10325476⟩

/-- `rotl(x, s)` for `0 ≤ s ≤ 31`; `rotl(x, 0) = x` (42_round_datapath.md R151). A shift amount is 5 bits wide, so no
larger one can be written. -/
def rotl (x : Word) (s : BitVec 5) : Word :=
  if s = 0 then x else (x <<< s.toNat) + (x >>> (32 - s.toNat))

/-- `F0(B, C, D) = (B ∧ C) ∨ (¬B ∧ D)` (42_round_datapath.md R153). -/
def mix0 (b c d : Word) : Word := (b &&& c) ||| (~~~b &&& d)

/-- `F1(B, C, D) = (D ∧ B) ∨ (¬D ∧ C)` (42_round_datapath.md R154). -/
def mix1 (b c d : Word) : Word := (d &&& b) ||| (~~~d &&& c)

/-- `F2(B, C, D) = B ⊕ C ⊕ D` (42_round_datapath.md R155). -/
def mix2 (b c d : Word) : Word := b ^^^ c ^^^ d

/-- `F3(B, C, D) = C ⊕ (B ∨ ¬D)` (42_round_datapath.md R156). -/
def mix3 (b c d : Word) : Word := c ^^^ (b ||| ~~~d)

/-- `g(i)` of rounds 0 to 15 (42_round_datapath.md R157). -/
def sched0 (i : Nat) : Nat := i % 16

/-- `g(i)` of rounds 16 to 31 (42_round_datapath.md R157). -/
def sched1 (i : Nat) : Nat := (5 * i + 1) % 16

/-- `g(i)` of rounds 32 to 47 (42_round_datapath.md R157). -/
def sched2 (i : Nat) : Nat := (3 * i + 5) % 16

/-- `g(i)` of rounds 48 to 63 (42_round_datapath.md R157). -/
def sched3 (i : Nat) : Nat := (7 * i) % 16

/-- `K[0]` to `K[15]` (42_round_datapath.md R158). -/
def kPhase0 : List Word :=
  [0xd76aa478, 0xe8c7b756, 0x242070db, 0xc1bdceee,
   0xf57c0faf, 0x4787c62a, 0xa8304613, 0xfd469501,
   0x698098d8, 0x8b44f7af, 0xffff5bb1, 0x895cd7be,
   0x6b901122, 0xfd987193, 0xa679438e, 0x49b40821]

/-- `K[16]` to `K[31]` (42_round_datapath.md R158). -/
def kPhase1 : List Word :=
  [0xf61e2562, 0xc040b340, 0x265e5a51, 0xe9b6c7aa,
   0xd62f105d, 0x02441453, 0xd8a1e681, 0xe7d3fbc8,
   0x21e1cde6, 0xc33707d6, 0xf4d50d87, 0x455a14ed,
   0xa9e3e905, 0xfcefa3f8, 0x676f02d9, 0x8d2a4c8a]

/-- `K[32]` to `K[47]` (42_round_datapath.md R158). -/
def kPhase2 : List Word :=
  [0xfffa3942, 0x8771f681, 0x6d9d6122, 0xfde5380c,
   0xa4beea44, 0x4bdecfa9, 0xf6bb4b60, 0xbebfbc70,
   0x289b7ec6, 0xeaa127fa, 0xd4ef3085, 0x04881d05,
   0xd9d4d039, 0xe6db99e5, 0x1fa27cf8, 0xc4ac5665]

/-- `K[48]` to `K[63]` (42_round_datapath.md R158). -/
def kPhase3 : List Word :=
  [0xf4292244, 0x432aff97, 0xab9423a7, 0xfc93a039,
   0x655b59c3, 0x8f0ccc92, 0xffeff47d, 0x85845dd1,
   0x6fa87e4f, 0xfe2ce6e0, 0xa3014314, 0x4e0811a1,
   0xf7537e82, 0xbd3af235, 0x2ad7d2bb, 0xeb86d391]

/-- `K[i]` (42_round_datapath.md R158). -/
def kTable (i : BitVec 6) : Word := (kPhase0 ++ kPhase1 ++ kPhase2 ++ kPhase3).getD i.toNat 0

/-- The four shift amounts of a phase, which repeat every four rounds (42_round_datapath.md R159). -/
def sPhase (p : BitVec 2) : List (BitVec 5) :=
  match p.toNat with
  | 0 => [7, 12, 17, 22]
  | 1 => [5, 9, 14, 20]
  | 2 => [4, 11, 16, 23]
  | _ => [6, 10, 15, 21]

/-- `S[i]` (42_round_datapath.md R159). -/
def sTable (i : BitVec 6) : BitVec 5 := (sPhase (phaseOf i)).getD (i.toNat % 4) 0

/-- One round on the local state, given `F`, `M[g(i)]`, `K[i]` and `S[i]` (42_round_datapath.md R160). `F` is computed from
the words at the start of the round (R166), and the four new words are written together. -/
def roundWords (f m k : Word) (s : BitVec 5) (w : Quad) : Quad :=
  ⟨w.d, w.b + rotl (w.a + f + k + m) s, w.b, w.c⟩

/-- The ROUND micro-operation, common part (42_round_datapath.md R160), for the phase `p` with its mixing function and
schedule. It is enabled when `ST = ROUND` and `RND[5:4] = p` (30_encoding.md R84). -/
def roundStep (p : BitVec 2) (mix : Word → Word → Word → Word) (sched : Nat → Nat) (s : State) : Result :=
  if s.st = .round ∧ phaseOf s.rnd = p then
    match messageWord s.buf (sched s.rnd.toNat) with
    | none => .fault .unwrittenByte
    | some m => .next { s with
        w := roundWords (mix s.w.b s.w.c s.w.d) m (kTable s.rnd) (sTable s.rnd) s.w
        rnd := if s.rnd.toNat < 63 then s.rnd + 1 else s.rnd
        st := if s.rnd.toNat = 63 then .cadd else .round }
  else .refused .notEnabled

end Sys2Proof.Machine
end

