-- ==== Sys2Proof/Machine/Round.lean ====
section
/-! DEFINITION. The four ROUND micro-operations (42_round_datapath.md R161 to R164), one per phase. -/

namespace Sys2Proof.Machine

/-- ROUND.P0, rounds 0 to 15 (42_round_datapath.md R161). -/
def execRoundP0 (s : State) : Result := roundStep 0 mix0 sched0 s

/-- ROUND.P1, rounds 16 to 31 (42_round_datapath.md R162). -/
def execRoundP1 (s : State) : Result := roundStep 1 mix1 sched1 s

/-- ROUND.P2, rounds 32 to 47 (42_round_datapath.md R163). -/
def execRoundP2 (s : State) : Result := roundStep 2 mix2 sched2 s

/-- ROUND.P3, rounds 48 to 63 (42_round_datapath.md R164). -/
def execRoundP3 (s : State) : Result := roundStep 3 mix3 sched3 s

end Sys2Proof.Machine
end

