-- ==== Sys2Proof/Machine/Seq.lean ====
section
/-! DEFINITION. The sequencer's commands NOP, INIT, PUSH, FINAL (spec/41_sequencer.md, section 2). -/

namespace Sys2Proof.Machine

/-- NOP: `rsp(0, 0x0000)`, no state read or written (41_sequencer.md R121). -/
def execNop (s : State) : Result := accepted s (.next (respondDone s))

/-- INIT: start a digest computation, from any ready state (41_sequencer.md R122). `W` and `BUF` are not written. -/
def execInit (s : State) : Result :=
  accepted s (.next (respondDone { s with
    h := initialHash
    len := 0
    fill := 0
    fin := false
    padk := 0
    rnd := 0
    cause := .none
    st := .absorb }))

/-- PUSH b: append one message byte (41_sequencer.md R123). SEQUENCE_ERROR outside ABSORB, then LENGTH_OVERFLOW at
`LEN = 2^61 - 1` (40_padding.md R108), which writes no byte. -/
def execPush (b : Byte) (s : State) : Result :=
  accepted s (legalIn .absorb s (
    if s.len.toNat = Config.maxLength then .next (raiseCommand .lengthOverflow s)
    else appendByte b .absorb (respondDone { s with len := s.len + 1 })))

/-- FINAL: end the message; the padding follows on its own (41_sequencer.md R124). -/
def execFinal (s : State) : Result :=
  accepted s (legalIn .absorb s (.next (respondDone { s with fin := true, st := .pad80 })))

end Sys2Proof.Machine
end

