-- ==== Sys2Proof/Machine/Dispatch.lean ====
section
/-! DEFINITION. Dispatch: one arm per constructor of `Instr`, each one call of its meaning. -/

namespace Sys2Proof.Machine

def exec (i : Instr) (s : State) : Host.Outcome State Fault Refusal :=
  match i with
  | .nop => Sys2Proof.Machine.execNop s
  | .init => Sys2Proof.Machine.execInit s
  | .push b => Sys2Proof.Machine.execPush b s
  | .final => Sys2Proof.Machine.execFinal s
  | .rdb k => Sys2Proof.Machine.execRdb k s
  | .rdh k => Sys2Proof.Machine.execRdh k s
  | .rds => Sys2Proof.Machine.execRds s
  | .pad80 => Sys2Proof.Machine.execPad80 s
  | .padzero => Sys2Proof.Machine.execPadzero s
  | .padlen => Sys2Proof.Machine.execPadlen s
  | .cload => Sys2Proof.Machine.execCload s
  | .roundP0 => Sys2Proof.Machine.execRoundP0 s
  | .roundP1 => Sys2Proof.Machine.execRoundP1 s
  | .roundP2 => Sys2Proof.Machine.execRoundP2 s
  | .roundP3 => Sys2Proof.Machine.execRoundP3 s
  | .cadd => Sys2Proof.Machine.execCadd s

end Sys2Proof.Machine
end

