-- ==== Sys2Proof/Machine/Agents.lean ====
section
/-! DEFINITION. The three agents of a step (41_sequencer.md R120): reset, which is always enabled; the host, enabled in
a ready state; the sequencer, enabled in a busy state. And how a table word is put where the next step runs it. -/

namespace Sys2Proof.Machine

/-- The host's step: the engine accepts the command word `w` and responds (30_encoding.md R72, R80, R82). In a busy state
no word is accepted, legal or illegal: it waits, and the state stays as it is (R72; notes/assumptions/10.md). -/
def acceptWord (w : CommandWord) (s : State) : Result :=
  match decodeCommand w with
  | .ok i => exec i s
  | .error _ => accepted s (illegalCommand s)

/-- The host's turn, in a ready state: the presented word is accepted; with none presented the engine rests
(30_encoding.md R72). `rest` is the script after the first input. -/
def hostTurn (s : State) : Result :=
  match s.host with
  | [] => .next s
  | .hold w :: rest => acceptWord w { s with host := rest }
  | .offer w :: rest => acceptWord w { s with host := rest }
  | .quiet :: rest => .next { s with host := rest }
  | .reset :: rest => .next (resetEvent { s with host := rest })

/-- The script after a step of a busy engine: a held word goes on waiting, "neither accepted nor dropped nor faulted"
(30_encoding.md R72); what the host does for one step only is past. -/
def waiting : List HostEvent → List HostEvent
  | [] => []
  | .hold w :: rest => .hold w :: rest
  | .offer _ :: rest => rest
  | .quiet :: rest => rest
  | .reset :: rest => rest

/-- The micro-operation that the control word selects (30_encoding.md R84). The script is not looked at. -/
def microOperation (s : State) : Result :=
  match decodeMicro s.controlWord with
  | .ok i => exec i s
  | .error _ => .refused .noMicroOperation

/-- The sequencer's turn, in a busy state: the selected micro-operation, while the script goes on as `waiting` says. -/
def sequencerTurn (s : State) : Result := microOperation { s with host := waiting s.host }

/-- Whether the host asserts reset in this step (70_reset_and_hazards.md R230). -/
def resetAsserted : List HostEvent → Bool
  | .reset :: _ => true
  | _ => false

/-- One step: the reset event where reset is asserted, else the step of the one agent that is enabled (41_sequencer.md
R120; 70_reset_and_hazards.md R230). -/
def engineStep (s : State) : Result :=
  if resetAsserted s.host then .next (resetEvent { s with host := s.host.tail })
  else if s.ready then hostTurn s
  else sequencerTurn s

/-! ### Placing an instruction where the next step runs it -/

/-- Bytes 0 to `n - 1` given the value 0 where they have none. -/
def fillMissing : Nat → Memory → Memory
  | 0, m => m
  | n + 1, m =>
    let m' := fillMissing n m
    match readByte m' n with
    | some _ => m'
    | none => writeByte m' n 0

/-- `FILL` of a sequencer position (10_state.md R38 (b), (f)): 64 in CLOAD, ROUND and CADD, 56 in PADLEN with
`PADK = 0`, elsewhere any number of bytes short of a block. -/
def fillFor (st : SeqState) (fill : Fin 65) : Fin 65 :=
  match st with
  | .cload => 64
  | .round => 64
  | .cadd => 64
  | .padlen => 56
  | _ => if fill = 64 then 0 else fill

/-- The engine at the sequencer position `(st, rnd)`, the engine's analogue of a program counter (10_state.md R27), with
nothing presented by the host in the next step. `FILL` fits the position and the bytes it counts are there. -/
def atPosition (st : SeqState) (rnd : BitVec 6) (s : State) : State :=
  { s with
    st := st
    rnd := rnd
    padk := if st = .padlen then 0 else s.padk
    fill := fillFor st s.fill
    buf := fillMissing (fillFor st s.fill).val s.buf
    host := .quiet :: s.host }

/-- The engine with the command word `w` presented and ready to accept it. -/
def presenting (w : CommandWord) (s : State) : State :=
  { s with
    st := if readyState s.st then s.st else .idle
    host := .hold w :: s.host }

/-- The instruction of a table word put where the next step runs it (DESIGN CHOICE, notes/assumptions/13.md, safe): a
micro-operation at the sequencer position its control word says, anything else on the command port. -/
def placeTableWord (s : State) (nbits w : Nat) : State :=
  match decodeTableWord nbits w with
  | some i =>
    if i.isCommand then presenting (BitVec.ofNat 16 w) s
    else
      match stOfCode (stField (BitVec.ofNat 10 w)) with
      | some st => atPosition st (rndField (BitVec.ofNat 10 w)) s
      | none => presenting (BitVec.ofNat 16 w) s
  | none => presenting (BitVec.ofNat 16 w) s

end Sys2Proof.Machine
end

