-- ==== Sys2Proof/Machine/Step.lean ====
section
/-! DEFINITION. One step of the engine, and the host's way to run one instruction of the opcode table. -/

namespace Sys2Proof.Machine

/-- One step: a reset event, an accepted command, a micro-operation, or rest (41_sequencer.md R120). -/
def step (s : State) : Host.Outcome State Fault Refusal := engineStep s

/-- `s` with the instruction of a table word put where `step` runs it next (notes/assumptions/13.md). -/
def State.withFetchWord (s : State) (nbits w : Nat) : State := placeTableWord s nbits w

end Sys2Proof.Machine
end

