-- ==== Sys2Proof/Machine/Assembler.lean ====
section
/-! DEFINITION. Command sequences as text (30_encoding.md R86, R87): the mnemonics, the directives `.reset` and `.word`,
the pseudo-instructions with their expansions, and the script of host inputs that a program stands for. Text is a list
of characters. What R86 does not say of blanks and of malformed lines is notes/assumptions/16.md. -/

namespace Sys2Proof.Machine

/-- One line of a program (30_encoding.md R86, R87). -/
inductive SourceLine where
  | command (i : Instr)
  | reset
  | word (w : CommandWord)
  | pushs (text : List Char)
  | pushn (n : Nat) (b : Byte)
  | digest
  | hexdigest
  | hash (text : List Char)
  deriving DecidableEq, Repr

/-- Why a line does not assemble. -/
inductive AsmError where
  /-- A string without its closing quotation mark. -/
  | openText
  /-- A character of a string that PUSHS does not take. -/
  | badCharacter
  /-- A number that is no decimal and no `0x` number. -/
  | badNumber
  /-- An operand outside its range. -/
  | operandRange
  /-- No line of 30_encoding.md R86 or R87. -/
  | unknownLine
  deriving DecidableEq, Repr

/-! ### Expansion -/

/-- `PUSHS`: one PUSH of the ASCII code of each character (30_encoding.md R87). -/
def pushsExpansion (text : List Char) : List Instr := text.map (fun c => .push (BitVec.ofNat 8 c.toNat))

/-- `PUSHN n, b`: `n` copies of `PUSH b` (30_encoding.md R87). -/
def pushnExpansion (n : Nat) (b : Byte) : List Instr := List.replicate n (.push b)

/-- `DIGEST`: `RDB 0` to `RDB 15` (30_encoding.md R87). -/
def digestExpansion : List Instr := (List.range 16).map (fun i => .rdb (BitVec.ofNat 8 i))

/-- `HEXDIGEST`: `RDH 0` to `RDH 31` (30_encoding.md R87). -/
def hexdigestExpansion : List Instr := (List.range 32).map (fun j => .rdh (BitVec.ofNat 8 j))

/-- `HASH`: `INIT`, `PUSHS`, `FINAL`, `HEXDIGEST` (30_encoding.md R87). -/
def hashExpansion (text : List Char) : List Instr :=
  [.init] ++ pushsExpansion text ++ [.final] ++ hexdigestExpansion

/-- The word of a command; a micro-operation has none, and stands in no program. -/
def wordOf (i : Instr) : Option CommandWord :=
  match encode i with
  | .command w => some w
  | .micro _ => none

/-- Commands presented in order, "each one as soon as `cmd_ready = 1`" (30_encoding.md R86). -/
def presentAll (is : List Instr) : List HostEvent := is.filterMap (fun i => (wordOf i).map .hold)

/-- The host inputs a line stands for (30_encoding.md R86, R87). -/
def expandLine : SourceLine → List HostEvent
  | .command i => presentAll [i]
  | .reset => [.reset]
  | .word w => [.hold w]
  | .pushs text => presentAll (pushsExpansion text)
  | .pushn n b => presentAll (pushnExpansion n b)
  | .digest => presentAll digestExpansion
  | .hexdigest => presentAll hexdigestExpansion
  | .hash text => presentAll (hashExpansion text)

/-! ### Reading text -/

/-- The parts of a line: a word of other characters, a quoted string, a comma. -/
inductive Token where
  | word (cs : List Char)
  | text (cs : List Char)
  | comma
  deriving DecidableEq, Repr

/-- Where the reader stands in a line; the characters read so far are kept in reverse. -/
inductive LexMode where
  | between
  | inWord (acc : List Char)
  | inText (acc : List Char)
  deriving DecidableEq, Repr

/-- A space, a tab or a carriage return. -/
def isBlank (c : Char) : Bool := c.toNat = 32 || c.toNat = 9 || c.toNat = 13

/-- The tokens of a line; a `;` outside a string starts a comment (30_encoding.md R86). Character codes: 34 is the
quotation mark, 44 the comma, 59 the semicolon. -/
def lexLine : LexMode → List Char → Except AsmError (List Token)
  | .between, [] => .ok []
  | .inWord acc, [] => .ok [.word acc.reverse]
  | .inText _, [] => .error .openText
  | .between, c :: cs =>
    if isBlank c then lexLine .between cs
    else if c.toNat = 59 then .ok []
    else if c.toNat = 34 then lexLine (.inText []) cs
    else if c.toNat = 44 then (lexLine .between cs).map (.comma :: ·)
    else lexLine (.inWord [c]) cs
  | .inWord acc, c :: cs =>
    if isBlank c then (lexLine .between cs).map (.word acc.reverse :: ·)
    else if c.toNat = 59 then .ok [.word acc.reverse]
    else if c.toNat = 34 then (lexLine (.inText []) cs).map (.word acc.reverse :: ·)
    else if c.toNat = 44 then (lexLine .between cs).map (fun ts => .word acc.reverse :: .comma :: ts)
    else lexLine (.inWord (c :: acc)) cs
  | .inText acc, c :: cs =>
    if c.toNat = 34 then (lexLine .between cs).map (.text acc.reverse :: ·)
    else lexLine (.inText (c :: acc)) cs

/-- The value of a digit in the given base. -/
def digitValue (base : Nat) (c : Char) : Option Nat :=
  let n := c.toNat
  let v := if 48 ≤ n ∧ n ≤ 57 then n - 48
    else if 97 ≤ n ∧ n ≤ 102 then n - 87
    else if 65 ≤ n ∧ n ≤ 70 then n - 55
    else 16
  if v < base then some v else none

/-- The value of digits, the most significant first. -/
def digitsValue (base : Nat) : Nat → List Char → Option Nat
  | acc, [] => some acc
  | acc, c :: cs =>
    match digitValue base c with
    | some v => digitsValue base (acc * base + v) cs
    | none => none

/-- A number, "in decimal or in hexadecimal with `0x`" (30_encoding.md R86). -/
def readNumber : List Char → Except AsmError Nat
  | '0' :: 'x' :: c :: cs => (digitsValue 16 0 (c :: cs)).elim (.error .badNumber) .ok
  | c :: cs => (digitsValue 10 0 (c :: cs)).elim (.error .badNumber) .ok
  | [] => .error .badNumber

/-- An operand byte made into a command, where the command is well formed (30_encoding.md R75). -/
def readOperand (cs : List Char) (f : Byte → Instr) : Except AsmError SourceLine :=
  match readNumber cs with
  | .error e => .error e
  | .ok n => if n < 256 ∧ (f (BitVec.ofNat 8 n)).wf then .ok (.command (f (BitVec.ofNat 8 n))) else .error .operandRange

/-- A character PUSHS takes: printable, and neither the quotation mark nor the backslash (30_encoding.md R87). -/
def isTextChar (c : Char) : Bool := 32 ≤ c.toNat && c.toNat ≤ 126 && c.toNat != 34 && c.toNat != 92

/-- A line that carries a string. -/
def readText (cs : List Char) (f : List Char → SourceLine) : Except AsmError SourceLine :=
  if cs.all isTextChar then .ok (f cs) else .error .badCharacter

/-- The line that tokens stand for; `none` for a line that is empty or only a comment. -/
def readTokens : List Token → Except AsmError (Option SourceLine)
  | [] => .ok none
  | [.word ['N', 'O', 'P']] => .ok (some (.command .nop))
  | [.word ['I', 'N', 'I', 'T']] => .ok (some (.command .init))
  | [.word ['P', 'U', 'S', 'H'], .word n] => (readOperand n .push).map some
  | [.word ['F', 'I', 'N', 'A', 'L']] => .ok (some (.command .final))
  | [.word ['R', 'D', 'B'], .word n] => (readOperand n .rdb).map some
  | [.word ['R', 'D', 'H'], .word n] => (readOperand n .rdh).map some
  | [.word ['R', 'D', 'S']] => .ok (some (.command .rds))
  | [.word ['.', 'r', 'e', 's', 'e', 't']] => .ok (some .reset)
  | [.word ['.', 'w', 'o', 'r', 'd'], .word n] =>
    match readNumber n with
    | .error e => .error e
    | .ok w => if w < 65536 then .ok (some (.word (BitVec.ofNat 16 w))) else .error .operandRange
  | [.word ['P', 'U', 'S', 'H', 'S'], .text cs] => (readText cs .pushs).map some
  | [.word ['P', 'U', 'S', 'H', 'N'], .word n, .comma, .word b] =>
    match readNumber n, readNumber b with
    | .ok n, .ok b => if b < 256 then .ok (some (.pushn n (BitVec.ofNat 8 b))) else .error .operandRange
    | .error e, _ => .error e
    | _, .error e => .error e
  | [.word ['D', 'I', 'G', 'E', 'S', 'T']] => .ok (some .digest)
  | [.word ['H', 'E', 'X', 'D', 'I', 'G', 'E', 'S', 'T']] => .ok (some .hexdigest)
  | [.word ['H', 'A', 'S', 'H'], .text cs] => (readText cs .hash).map some
  | _ => .error .unknownLine

/-- One line of a program. -/
def readLine (cs : List Char) : Except AsmError (Option SourceLine) :=
  match lexLine .between cs with
  | .error e => .error e
  | .ok ts => readTokens ts

/-- The lines of a text; code 10 ends a line. -/
def linesOf : List Char → List (List Char)
  | [] => [[]]
  | c :: cs =>
    if c.toNat = 10 then [] :: linesOf cs
    else
      match linesOf cs with
      | [] => [[c]]
      | l :: ls => (c :: l) :: ls

/-- The host inputs of a program's lines, in order. -/
def assembleLines : List (List Char) → Except AsmError (List HostEvent)
  | [] => .ok []
  | l :: ls =>
    match readLine l, assembleLines ls with
    | .ok none, .ok es => .ok es
    | .ok (some line), .ok es => .ok (expandLine line ++ es)
    | .error e, _ => .error e
    | _, .error e => .error e

/-- A program text as the script of host inputs that runs it (30_encoding.md R86). -/
def assemble (text : List Char) : Except AsmError (List HostEvent) := assembleLines (linesOf text)

end Sys2Proof.Machine
end

