-- ==== Sys2Proof/Machine/Reference.lean ====
section
/-! DEFINITION. The pure functions the engine computes: `Pad` (spec/40_padding.md, section 1), `Compress`
(42_round_datapath.md R165), `Serialize` and `Hex` (43_accumulator_serializer.md R183, R185), `MD5` and `MD5hex`
(41_sequencer.md R130), and the big step of a command (41_sequencer.md R134). They are written from their own rules, not
from the micro-operations, so that the engine can be held against them. -/

namespace Sys2Proof.Machine

/-! ### Padding -/

/-- `z(L) = (55 - L) mod 64`, a number 0 to 63 (40_padding.md R100). -/
def zeroCount (len : Nat) : Nat := (55 + (64 - len % 64)) % 64

/-- Byte `k` of the length field: R103's for a length up to `2^61 - 1`. The spec gives a longer message no padding, and no
wrapped length is computed for one: there the byte is a free value (DESIGN CHOICE, notes/assumptions/19.md, safe). -/
def lenFieldByte (len k : Nat) : Byte :=
  if len ≤ Config.maxLength then lengthByte len k else Config.overlongByte len k

/-- `LenField(L)`, eight bytes, low byte first (40_padding.md R103); over `2^61 - 1` eight free values
(notes/assumptions/19.md). -/
def lenField (len : Nat) : List Byte := (List.range 8).map (lenFieldByte len)

/-- `Pad(m)` (40_padding.md R100). The rule defines it for messages of up to `2^61 - 1` bytes; that it is a value for longer
ones too, with a free length field, is the model's choice (notes/assumptions/19.md). -/
def pad (m : List Byte) : List Byte :=
  m ++ [0x80] ++ List.replicate (zeroCount m.length) 0x00 ++ lenField m.length

/-- `N(L) = (L + 8) div 64 + 1` (40_padding.md R101). -/
def blockCount (len : Nat) : Nat := (len + 8) / 64 + 1

/-- Block `k` of a byte sequence: its bytes `64 k` to `64 k + 63` (41_sequencer.md R126). Past the end it is
shorter (notes/assumptions/22.md). -/
def blockAt (bytes : List Byte) (k : Nat) : List Byte := (bytes.drop (64 * k)).take 64

/-! ### Compression -/

/-- The mixing function of round `i`, 0 to 63 (42_round_datapath.md R153 to R156, R167; else notes/assumptions/22.md). -/
def mixOf (i : Nat) : Word → Word → Word → Word :=
  if i < 16 then mix0 else if i < 32 then mix1 else if i < 48 then mix2 else mix3

/-- `g(i)` for `i` 0 to 63 (42_round_datapath.md R157; else notes/assumptions/22.md). -/
def schedOf (i : Nat) : Nat :=
  if i < 16 then i else if i < 32 then (5 * i + 1) % 16 else if i < 48 then (3 * i + 5) % 16 else (7 * i) % 16

/-- `M[j]` of a block of 64 bytes (20_memory.md R52). A byte that a shorter list lacks counts as 0, the model's choice
(DESIGN CHOICE, notes/assumptions/22.md, safe). -/
def blockWord (block : List Byte) (j : Nat) : Word :=
  wordOfBytes (block.getD (4 * j) 0) (block.getD (4 * j + 1) 0) (block.getD (4 * j + 2) 0) (block.getD (4 * j + 3) 0)

/-- Round `i` on `(a, b, c, d)`, the simultaneous assignment of 42_round_datapath.md R165. -/
def compressRound (block : List Byte) (i : Nat) (w : Quad) : Quad :=
  ⟨w.d,
   w.b + rotl (w.a + mixOf i w.b w.c w.d + kTable (BitVec.ofNat 6 i) + blockWord block (schedOf i))
     (sTable (BitVec.ofNat 6 i)),
   w.b,
   w.c⟩

/-- The first `n` rounds, `n` up to 64 (else notes/assumptions/22.md). -/
def compressRounds (block : List Byte) : Nat → Quad → Quad
  | 0, w => w
  | n + 1, w => compressRound block n (compressRounds block n w)

/-- `Compress(h, B)` for a block of 64 bytes (42_round_datapath.md R165; else notes/assumptions/22.md). -/
def compress (h : Quad) (block : List Byte) : Quad := h.add (compressRounds block 64 h)

/-- `h_n`: the first `n` blocks compressed into `IV`, one after another (41_sequencer.md R130). -/
def compressBlocks (bytes : List Byte) : Nat → Quad
  | 0 => initialHash
  | n + 1 => compress (compressBlocks bytes n) (blockAt bytes n)

/-! ### The digest -/

/-- `Serialize(h)`: the 16 bytes `DIGEST[0..15]` of `h` (43_accumulator_serializer.md R183). -/
def serialize (h : Quad) : List Byte := (List.range 16).map (digestByte h)

/-- `Hex(d)`: two characters a byte, the high four bits first (43_accumulator_serializer.md R185, R187). -/
def hexOf (d : List Byte) : List Byte :=
  d.flatMap (fun b => [hexCode (b.extractLsb' 4 4), hexCode (b.extractLsb' 0 4)])

/-- The hash state after the last block, `h_N` (41_sequencer.md R130, for messages of up to `2^61 - 1` bytes; for longer ones
it rests on a free length field, notes/assumptions/19.md). -/
def finalHash (m : List Byte) : Quad := compressBlocks (pad m) (blockCount m.length)

/-- `MD5(m)` (41_sequencer.md R130; over `2^61 - 1` bytes as `finalHash`). -/
def md5 (m : List Byte) : List Byte := serialize (finalHash m)

/-- `MD5hex(m)` (41_sequencer.md R130; over `2^61 - 1` bytes as `finalHash`). -/
def md5hex (m : List Byte) : List Byte := hexOf (md5 m)

/-! ### The big step -/

/-- Micro-operations until a ready state is reached, at most `n` of them. The host's script is neither used nor moved on: a
reset input or a word waiting in it is still there afterwards, where `step` would take a reset between two
micro-operations. The spec defines the big step without the host's other inputs (41_sequencer.md R134), so this is the
model's choice (DESIGN CHOICE, notes/assumptions/20.md, safe). -/
def runToReady : Nat → State → Result
  | 0, s => .next s
  | n + 1, s =>
    if s.ready then .next s
    else
      match microOperation s with
      | .next t => runToReady n t
      | r => r

/-- The big step of a command word: "apply the command rule, then apply micro-operations until a ready state is
reached" (41_sequencer.md R134); 205 micro-operations are enough (70_reset_and_hazards.md R236). No reset event happens
inside it and the script stays as it is. The spec defines it where a command is accepted, so in a ready state; from a busy
state the word waits for the next ready state and is accepted there, as 30_encoding.md R72 has a presented word wait
(DESIGN CHOICE, notes/assumptions/20.md, safe). -/
def bigStep (w : CommandWord) (s : State) : Result :=
  match runToReady 205 s with
  | .next u =>
    match acceptWord w u with
    | .next t => runToReady 205 t
    | r => r
  | r => r

end Sys2Proof.Machine
end

