-- ==== Sys2Proof/Safety.lean ====
section
/-! DEFINITION. The terms that claims about whole runs use: the invariants of reachable states (10_state.md R38), the
table of transitions (41_sequencer.md R129), the end of a run (R133), the number of micro-operations still to come
(70_reset_and_hazards.md R236), the states that no later behaviour can tell apart (R132), and what it is to have
absorbed a message (R130; 40_padding.md R104). -/

namespace Sys2Proof.Machine

/-! ### Invariants of reachable states -/

/-- `ST ∈ {CLOAD, ROUND, CADD}`: a full block is in `BUF` (10_state.md R38 (b)). -/
def compressing : SeqState → Bool
  | .idle => false
  | .absorb => false
  | .pad80 => false
  | .padzero => false
  | .padlen => false
  | .cload => true
  | .round => true
  | .cadd => true
  | .done => false
  | .fault => false

/-- `ST ∈ {PAD80, PADZERO, PADLEN}` (10_state.md R38 (f)). -/
def padding : SeqState → Bool
  | .idle => false
  | .absorb => false
  | .pad80 => true
  | .padzero => true
  | .padlen => true
  | .cload => false
  | .round => false
  | .cadd => false
  | .done => false
  | .fault => false

/-- The well-formed states: 10_state.md R38 (b) to (h) ((a) and (i) hold by the types of `st` and `len`), the clause of
R37 that every byte below `FILL` has been written, the canonical form of `BUF`, and what the rules say of the states
between PUSH and the end of a block (41_sequencer.md R123, R124; 40_padding.md R105). -/
structure State.Inv (s : State) : Prop where
  /-- The memory is in its canonical form. -/
  canonical : Memory.wf s.buf = true
  /-- R37: "bytes 0 to 63 were each written since the last CADD, INIT or reset", for as many as `FILL` counts (R32). -/
  written : ∀ i, i < s.fill.val → (readByte s.buf i).isSome = true
  /-- R38 (b). -/
  full : s.fill.val = 64 ↔ compressing s.st = true
  /-- R38 (c). -/
  absorb : s.st = .absorb → s.fin = false ∧ s.padk.val = 0 ∧ s.fill.val = s.len.toNat % 64
  /-- R38 (d). -/
  idle : s.st = .idle → s.fill.val = 0 ∧ s.len = 0 ∧ s.fin = false ∧ s.padk.val = 0 ∧ s.rnd = 0
  /-- R38 (e). -/
  counted : 0 < s.padk.val → s.fin = true
  /-- R38 (f), first clause. -/
  paddingFin : padding s.st = true → s.fin = true
  /-- 40_padding.md R105: in PAD80 `FILL = LEN mod 64`, and no length byte is appended yet. -/
  pad80 : s.st = .pad80 → s.padk.val = 0 ∧ s.fill.val = s.len.toNat % 64
  /-- R38 (f), PADZERO. -/
  padzero : s.st = .padzero → s.padk.val = 0
  /-- R38 (f), PADLEN. -/
  padlen : s.st = .padlen → s.fill.val = 56 + s.padk.val ∧ s.padk.val ≤ 7
  /-- A block is compressed before or after the length bytes, never between them (43_accumulator_serializer.md R181). -/
  block : compressing s.st = true → s.padk.val = 0 ∨ s.padk.val = 8
  /-- A block compressed during PUSH ends at a multiple of 64 message bytes (41_sequencer.md R123). -/
  whole : compressing s.st = true → s.fin = false → s.len.toNat % 64 = 0
  /-- R38 (g). -/
  done : s.st = .done → s.fin = true ∧ s.padk.val = 8 ∧ s.fill.val = 0
  /-- R38 (h). -/
  fault : s.st = .fault ↔ s.cause ≠ .none

/-! ### The transition table -/

/-- The state a command leads to, by the rows of 41_sequencer.md R129 for IDLE, ABSORB, DONE and FAULT; `none` stands for
an illegal word. It is asked for in ready states only: in a busy state no command is accepted (30_encoding.md R72), and
the value there means nothing (notes/assumptions/22.md). -/
def commandTarget (s : State) : Option Instr → SeqState
  | none => .fault
  | some i =>
    match s.st, i with
    | .idle, .nop => .idle
    | .idle, .rds => .idle
    | .idle, .init => .absorb
    | .absorb, .nop => .absorb
    | .absorb, .rds => .absorb
    | .absorb, .init => .absorb
    | .absorb, .push _ =>
      if s.len.toNat = Config.maxLength then .fault else if s.fill.val = 63 then .cload else .absorb
    | .absorb, .final => .pad80
    | .done, .nop => .done
    | .done, .rds => .done
    | .done, .rdb _ => .done
    | .done, .rdh _ => .done
    | .done, .init => .absorb
    | .fault, .init => .absorb
    | _, _ => .fault

/-- The state a micro-operation leads to, by the rows of 41_sequencer.md R129 for the busy states. -/
def microTarget (s : State) : SeqState :=
  match s.st with
  | .pad80 => if s.fill.val = 63 then .cload else .padzero
  | .padzero => if s.fill.val = 56 then .padlen else if s.fill.val = 63 then .cload else .padzero
  | .padlen => if s.fill.val = 63 then .cload else .padlen
  | .cload => if s.fill.val = 64 then .round else .fault
  | .round => if s.rnd.toNat = 63 then .cadd else .round
  | .cadd => if s.fin = false then .absorb else if s.padk.val < 8 then .padzero else .done
  | .idle => .idle
  | .absorb => .absorb
  | .done => .done
  | .fault => .fault

/-! ### The end of a run -/

/-- A run is over: the script is empty and the engine is in a ready state. For a program, a script of held words, that is
41_sequencer.md R133: every word has been accepted. The rule speaks of words only; that a run with other inputs is over
when its quiet and reset inputs are used up too, and that an offered word which was withdrawn no longer counts, is the
model's choice (DESIGN CHOICE, notes/assumptions/21.md, safe). -/
def State.over (s : State) : Bool := s.host.isEmpty && s.ready

/-- A run that is over ended well: IDLE, ABSORB or DONE (41_sequencer.md R133). -/
def State.good (s : State) : Bool := s.over && !s.faultOut

/-- A run that is over ended in FAULT (41_sequencer.md R133). -/
def State.faulted (s : State) : Bool := s.over && s.faultOut

/-- The micro-operations from PADZERO with `FILL = fill` to the end of the last block: zero bytes, the step that finds
`FILL = 56`, eight length bytes and one block, after one more block where the zeros spill over (40_padding.md R106;
70_reset_and_hazards.md R236). -/
def padzeroLeft (fill : Nat) : Nat :=
  if fill ≤ 56 then (56 - fill) + 1 + 8 + 66 else (64 - fill) + 66 + (56 + 1 + 8 + 66)

/-- What follows CADD: nothing, or the padding of a fresh block (43_accumulator_serializer.md R181). -/
def afterCaddLeft (s : State) : Nat := if s.fin = true ∧ s.padk.val ≠ 8 then padzeroLeft 0 else 0

/-- The number of micro-operations until the engine is ready again, in a state that satisfies `State.Inv`
(70_reset_and_hazards.md R236); in another state the number means nothing (notes/assumptions/22.md). -/
def microOpsLeft (s : State) : Nat :=
  match s.st with
  | .pad80 => 1 + (if s.fill.val = 63 then 66 + padzeroLeft 0 else padzeroLeft (s.fill.val + 1))
  | .padzero => padzeroLeft s.fill.val
  | .padlen => (8 - s.padk.val) + 66
  | .cload => 66 + afterCaddLeft s
  | .round => (64 - s.rnd.toNat) + 1 + afterCaddLeft s
  | .cadd => 1 + afterCaddLeft s
  | .idle => 0
  | .absorb => 0
  | .done => 0
  | .fault => 0

/-! ### States that no later behaviour can tell apart -/

/-- The hash state is read again before it is written: not so in IDLE and FAULT, which only INIT leaves
(10_state.md R37). -/
def hashLive : SeqState → Bool
  | .idle => false
  | .absorb => true
  | .pad80 => true
  | .padzero => true
  | .padlen => true
  | .cload => true
  | .round => true
  | .cadd => true
  | .done => true
  | .fault => false

/-- The local state is read again before it is written (10_state.md R24, R37). -/
def localLive : SeqState → Bool
  | .idle => false
  | .absorb => false
  | .pad80 => false
  | .padzero => false
  | .padlen => false
  | .cload => false
  | .round => true
  | .cadd => true
  | .done => false
  | .fault => false

/-- Two states that agree on the control state, the inputs and the responses, and on the data a later rule can read
before it writes it (10_state.md R37; 41_sequencer.md R132): `H` and `W` where they are live, and the bytes of `BUF`
that `FILL` counts, all 64 of them during the rounds. -/
structure SameBehaviour (s t : State) : Prop where
  fill : s.fill = t.fill
  len : s.len = t.len
  fin : s.fin = t.fin
  padk : s.padk = t.padk
  rnd : s.rnd = t.rnd
  st : s.st = t.st
  cause : s.cause = t.cause
  host : s.host = t.host
  rsp : s.rsp = t.rsp
  hash : hashLive s.st = true → s.h = t.h
  work : localLive s.st = true → s.w = t.w
  bytes : ∀ i, i < s.fill.val → readByte s.buf i = readByte t.buf i
  block : s.st = .round → ∀ i, i < 64 → readByte s.buf i = readByte t.buf i

/-! ### Messages -/

/-- The engine is in ABSORB and has taken exactly the bytes `m` since INIT: the whole blocks of `m` are in the hash
state and the tail is in `BUF[0..FILL-1]` (10_state.md R35; 41_sequencer.md R123). -/
structure Absorbed (s : State) (m : List Byte) : Prop where
  st : s.st = .absorb
  fin : s.fin = false
  padk : s.padk.val = 0
  cause : s.cause = .none
  short : m.length ≤ Config.maxLength
  len : s.len.toNat = m.length
  fill : s.fill.val = m.length % 64
  tail : ∀ i, i < m.length % 64 → readByte s.buf i = m[64 * (m.length / 64) + i]?
  hash : s.h = compressBlocks m (m.length / 64)

/-- The bytes `BUF[0..63]` are the block `block` (10_state.md R25). -/
def HoldsBlock (buf : Memory) (block : List Byte) : Prop :=
  block.length = 64 ∧ ∀ i, i < 64 → readByte buf i = block[i]?

/-- The host's inputs `INIT`, `PUSH m[0]`, ..., `PUSH m[L-1]`, `FINAL` (41_sequencer.md R130). -/
def digestInputs (m : List Byte) : List HostEvent :=
  [.hold 0x1000] ++ m.map (fun b => .hold (commandWord 2 b)) ++ [.hold 0x3000]

/-! ### Words that several claims use -/

/-- `n` steps, ending at the first that answers no next state. -/
def runSteps : Nat → State → Result
  | 0, s => .next s
  | n + 1, s =>
    match step s with
    | .next t => runSteps n t
    | r => r

/-- Byte `i` of the buffer is written with `v`, and every other byte reads as before. -/
def StoresByte (s t : State) (i : Nat) (v : Byte) : Prop :=
  readByte t.buf i = some v ∧ ∀ j, j ≠ i → readByte t.buf j = readByte s.buf j

/-- Everything but `BUF`, `FILL`, `LEN`, `PADK`, `ST` and the responses is as before: what PUSH and the padding
micro-operations leave alone (10_state.md R20, column "written by"). -/
def KeepsDigestState (s t : State) : Prop :=
  t.h = s.h ∧ t.w = s.w ∧ t.fin = s.fin ∧ t.rnd = s.rnd ∧ t.cause = s.cause ∧ t.host = s.host ∧ t.resets = s.resets

/-- ROUND's rule (42_round_datapath.md R160) for the variant `i` of phase `p`, with its mixing function, its schedule and
the shift amounts of its rounds (R161 to R164): the whole state after the round is given. -/
def RoundEffect (i : Instr) (p : Nat) (mix : Word → Word → Word → Word) (g : Nat → Nat) (amounts : List Nat) : Prop :=
  ∀ (s : State) (m : Word), s.st = .round → s.rnd.toNat / 16 = p → messageWord s.buf (g s.rnd.toNat) = some m →
    (sTable s.rnd).toNat ∈ amounts ∧
    exec i s = .next { s with
      w := ⟨s.w.d,
            s.w.b + rotl (s.w.a + mix s.w.b s.w.c s.w.d + kTable s.rnd + m) (sTable s.rnd),
            s.w.b,
            s.w.c⟩
      rnd := if s.rnd.toNat < 63 then s.rnd + 1 else s.rnd
      st := if s.rnd.toNat = 63 then .cadd else .round }

/-- The host presents `w` in this step, held or for this step only. -/
def Presents (s : State) (w : CommandWord) : Prop := ∃ rest, s.host = .hold w :: rest ∨ s.host = .offer w :: rest

/-- INIT is accepted in this step (30_encoding.md R72, R74). -/
def InitAccepted (s : State) : Prop := s.ready = true ∧ Presents s 0x1000

/-- The number that bytes stand for, the low byte first (40_padding.md R103). -/
def littleEndian : List Byte → Nat
  | [] => 0
  | b :: bs => b.toNat + 256 * littleEndian bs

/-- A command word that is illegal by the words of 30_encoding.md R80. -/
def IllegalWord (w : CommandWord) : Prop :=
  7 ≤ (opField w).toNat ∨ rsvField w ≠ 0 ∨
    ((opField w = 0 ∨ opField w = 1 ∨ opField w = 3 ∨ opField w = 6) ∧ immField w ≠ 0) ∨
    (opField w = 4 ∧ 15 < (immField w).toNat) ∨ (opField w = 5 ∧ 31 < (immField w).toNat)

end Sys2Proof.Machine
end

