-- ==== Sys2Proof/Certificates/Slice0/Obligations.lean ====
section
/-! DEFINITION. The statements for the provers, from the spec's numbered rules. Nothing is proved here. -/

open Sys2Proof Sys2Proof.Machine

/-! ### Reset and the invariant -/

/-- 70_reset_and_hazards.md R231: the engine after reset, its outputs and its STATUS, and that it waits for a command. -/
def Obligations.ResetLeavesIdle : Prop :=
  State.reset.st = .idle ∧ State.reset.cmdReady = true ∧ State.reset.doneOut = false ∧
    State.reset.faultOut = false ∧ State.reset.status = 0x0000 ∧ step State.reset = .next State.reset

/-- 70_reset_and_hazards.md section 1: a reset event in any state. Its place in the host's script and what it leaves of
the script and of the responses are the model's choices (notes/assumptions/2.md, 3.md). -/
def Obligations.ResetEventClearsControlState : Prop :=
  ∀ (s : State) (rest : List HostEvent), s.host = .reset :: rest →
    ∃ t, step s = .next t ∧ t.st = .idle ∧ t.cause = .none ∧ t.fin = false ∧ t.fill.val = 0 ∧ t.len = 0 ∧
      t.padk.val = 0 ∧ t.rnd = 0 ∧ (∀ i, readByte t.buf i = none) ∧ t.host = rest ∧ t.rsp = s.rsp

/-- 10_state.md section 6: the reset state is well formed. -/
def Obligations.ResetStateIsWellFormed : Prop := State.reset.Inv

/-- 10_state.md section 6: every step from a well-formed state leads to a well-formed state. -/
def Obligations.StepKeepsWellFormedness : Prop := ∀ s t : State, s.Inv → step s = .next t → t.Inv

/-- 10_state.md section 6 (no rule reads an element that nothing has written, ALIGN_ASSERT aside no check fails) and
41_sequencer.md section 6 (no state is stuck): from a well-formed state every step answers a next state. -/
def Obligations.WellFormedStatesNeverStop : Prop := ∀ s : State, s.Inv → ∃ t, step s = .next t

/-- 60_exceptions.md section 1: from a well-formed state no step raises ALIGN_ASSERT. -/
def Obligations.AlignAssertIsUnreachable : Prop :=
  ∀ s t : State, s.Inv → step s = .next t → s.cause ≠ .alignAssert → t.cause ≠ .alignAssert

/-- Every step keeps the buffer in its canonical form, from every state (the model's form of the memory,
notes/assumptions/6.md). -/
def Obligations.StepKeepsBufferCanonical : Prop :=
  ∀ s t : State, Memory.wf s.buf = true → step s = .next t → Memory.wf t.buf = true

/-! ### Encoding -/

/-- 30_encoding.md sections 3 and 5: decoding the encoding of a well-formed instruction gives it back. -/
def Obligations.DecodeOfEncode : Prop := ∀ i : Instr, i.wf = true → decode (encode i) = .ok i

/-- 30_encoding.md section 3: a legal command word is the encoding of exactly the command it decodes to. -/
def Obligations.EncodeOfDecodedCommand : Prop :=
  ∀ (w : CommandWord) (i : Instr), decodeCommand w = .ok i → i.wf = true ∧ encode i = .command w

/-- 30_encoding.md section 3: the seven patterns, "a word `w` is that command if and only if `w & mask = match`". -/
def Obligations.CommandPatterns : Prop :=
  ∀ w : CommandWord,
    (decodeCommand w = .ok .nop ↔ w &&& 0xFFFF = 0x0000) ∧
    (decodeCommand w = .ok .init ↔ w &&& 0xFFFF = 0x1000) ∧
    (∀ b : Byte, decodeCommand w = .ok (.push b) ↔ w &&& 0xFF00 = 0x2000 ∧ b = w.extractLsb' 0 8) ∧
    (decodeCommand w = .ok .final ↔ w &&& 0xFFFF = 0x3000) ∧
    (∀ i : Byte, decodeCommand w = .ok (.rdb i) ↔ w &&& 0xFFF0 = 0x4000 ∧ i = w.extractLsb' 0 8) ∧
    (∀ j : Byte, decodeCommand w = .ok (.rdh j) ↔ w &&& 0xFFE0 = 0x5000 ∧ j = w.extractLsb' 0 8) ∧
    (decodeCommand w = .ok .rds ↔ w &&& 0xFFFF = 0x6000)

/-- 30_encoding.md R80: which words are illegal, equivalently those that match none of the seven patterns, and what an
accepted illegal word does, in every ready state. -/
def Obligations.IllegalWordsFault : Prop :=
  ∀ w : CommandWord,
    ((∃ e, decodeCommand w = .error e) ↔ IllegalWord w) ∧
    (IllegalWord w ↔ ¬ (w &&& 0xFFFF = 0x0000 ∨ w &&& 0xFFFF = 0x1000 ∨ w &&& 0xFF00 = 0x2000 ∨ w &&& 0xFFFF = 0x3000 ∨
      w &&& 0xFFF0 = 0x4000 ∨ w &&& 0xFFE0 = 0x5000 ∨ w &&& 0xFFFF = 0x6000)) ∧
    ∀ s : State, IllegalWord w → s.ready = true →
      acceptWord w s = .next { s with
        cause := if s.cause = .none then .illegalCommand else s.cause
        st := .fault
        rsp := s.rsp ++ [⟨true, 0x0000⟩] }

/-- 30_encoding.md R84: the nine micro-operations by match and mask, none in a ready state, refusal of reserved codes,
and exactly one micro-operation in each busy state, which the step runs (here with nothing presented;
Obligations.StepRunsDecodedInstruction says it for every script). -/
def Obligations.MicroOperationPatterns : Prop :=
  (∀ u : ControlWord,
    (decodeMicro u = .ok .pad80 ↔ u &&& 0x3C0 = 0x080) ∧
    (decodeMicro u = .ok .padzero ↔ u &&& 0x3C0 = 0x0C0) ∧
    (decodeMicro u = .ok .padlen ↔ u &&& 0x3C0 = 0x100) ∧
    (decodeMicro u = .ok .cload ↔ u &&& 0x3C0 = 0x140) ∧
    (decodeMicro u = .ok .roundP0 ↔ u &&& 0x3F0 = 0x180) ∧
    (decodeMicro u = .ok .roundP1 ↔ u &&& 0x3F0 = 0x190) ∧
    (decodeMicro u = .ok .roundP2 ↔ u &&& 0x3F0 = 0x1A0) ∧
    (decodeMicro u = .ok .roundP3 ↔ u &&& 0x3F0 = 0x1B0) ∧
    (decodeMicro u = .ok .cadd ↔ u &&& 0x3C0 = 0x1C0) ∧
    (decodeMicro u = .error .readyState ↔
      stField u = 0 ∨ stField u = 1 ∨ stField u = 8 ∨ stField u = 9) ∧
    (decodeMicro u = .error .reservedState ↔ 10 ≤ (stField u).toNat)) ∧
  ∀ s : State,
    (s.ready = false → ∃ i, decodeMicro s.controlWord = .ok i ∧ i.isCommand = false ∧
      (s.host = [] → step s = exec i s)) ∧
    (s.ready = true → decodeMicro s.controlWord = .error .readyState)

/-- 95_test_vectors.md V40 and V41: words written out from 30_encoding.md sections 3 and 5. -/
def Obligations.SampleWordsDecode : Prop :=
  decodeCommand 0b0000000000000000 = .ok .nop ∧ decodeCommand 0b0001000000000000 = .ok .init ∧
    decodeCommand 0b0010000001100001 = .ok (.push 0x61) ∧ decodeCommand 0b0011000000000000 = .ok .final ∧
    decodeCommand 0b0100000000001111 = .ok (.rdb 15) ∧ decodeCommand 0b0101000000011111 = .ok (.rdh 31) ∧
    decodeCommand 0b0110000000000000 = .ok .rds ∧ decodeMicro 0b0010111111 = .ok .pad80 ∧
    decodeMicro 0b0110101111 = .ok .roundP2 ∧ decodeMicro 0b0111111111 = .ok .cadd

/-! ### Steps -/

/-- 30_encoding.md sections 1 and 5: a step accepts the presented word in a ready state and runs the command it decodes to,
and runs the selected micro-operation in a busy one. In a ready state the accepted word leaves the script; in a busy
state a held word stays in it (the script is the model's, notes/assumptions/2.md). -/
def Obligations.StepRunsDecodedInstruction : Prop :=
  ∀ (s : State) (i : Instr),
    (∀ (w : CommandWord) (rest : List HostEvent), s.ready = true → s.host = .hold w :: rest ∨ s.host = .offer w :: rest →
      step s = acceptWord w { s with host := rest } ∧
      (decodeCommand w = .ok i → step s = exec i { s with host := rest })) ∧
    (s.ready = false → resetAsserted s.host = false → decodeMicro s.controlWord = .ok i →
      step s = exec i { s with host := waiting s.host })

/-- 30_encoding.md section 1, acceptance: ready is IDLE, ABSORB, DONE, FAULT; in a busy state a held word is neither
accepted nor dropped nor answered and the engine does what it does without it; a ready engine with no word rests; an
accepted word is consumed and answered once. The script is the model's (notes/assumptions/2.md). -/
def Obligations.CommandsWaitWhileBusy : Prop :=
  ∀ s : State,
    (s.ready = true ↔ s.st = .idle ∨ s.st = .absorb ∨ s.st = .done ∨ s.st = .fault) ∧
    (∀ (t : State) (w : CommandWord) (rest : List HostEvent), s.ready = false → s.host = .hold w :: rest →
      step s = .next t → t.host = s.host ∧ t.rsp = s.rsp ∧ step { s with host := [] } = .next { t with host := [] }) ∧
    (s.ready = true → s.host = [] → step s = .next s) ∧
    (∀ (t : State) (w : CommandWord) (rest : List HostEvent), s.ready = true → s.host = .hold w :: rest →
      step s = .next t → t.host = rest ∧ ∃ r, t.rsp = s.rsp ++ [r])

/-- 30_encoding.md section 1 (notes/assumptions/10.md): the meaning of a command asked for in a busy state is to wait,
with nothing changed. -/
def Obligations.BusyCommandChangesNothing : Prop :=
  ∀ (i : Instr) (s : State), i.isCommand = true → s.ready = false → exec i s = .next s

/-- 30_encoding.md R73: the response to an accepted word. -/
def Obligations.ResponseOfEachCommand : Prop :=
  ∀ (s t : State) (w : CommandWord), s.ready = true → acceptWord w s = .next t →
    ∃ r, t.rsp = s.rsp ++ [r] ∧
      (r.fault = true → t.st = .fault ∧ t.cause ≠ .none ∧ r.data = 0x0000) ∧
      (s.st = .fault → (r.fault = false ↔
        decodeCommand w = .ok .nop ∨ decodeCommand w = .ok .rds ∨ decodeCommand w = .ok .init)) ∧
      (r.fault = false → (s.st ≠ .fault → t.st ≠ .fault) ∧
        ∃ i, decodeCommand w = .ok i ∧
        (i = .nop ∨ i = .init ∨ (∃ b, i = .push b) ∨ i = .final → r.data = 0x0000) ∧
        (∀ k, i = .rdb k → r.data = (digestByte s.h k.toNat).setWidth 16) ∧
        (∀ k, i = .rdh k → r.data = (hexChar s.h k.toNat).setWidth 16) ∧
        (i = .rds → r.data = s.status))

/-! ### The commands -/

/-- 41_sequencer.md R121. -/
def Obligations.NopEffect : Prop :=
  decodeCommand 0x0000 = .ok .nop ∧
  ∀ s : State, s.ready = true → exec .nop s = .next { s with rsp := s.rsp ++ [⟨false, 0x0000⟩] }

/-- 41_sequencer.md R122. -/
def Obligations.InitEffect : Prop :=
  decodeCommand 0x1000 = .ok .init ∧
  ∀ s : State, s.ready = true →
    exec .init s = .next { s with
      h := ⟨0x67452301, 0xEFCDAB89, 0x98BADCFE, 0x10325476⟩
      len := 0
      fill := 0
      fin := false
      padk := 0
      rnd := 0
      cause := .none
      st := .absorb
      rsp := s.rsp ++ [⟨false, 0x0000⟩] }

/-- 41_sequencer.md R123: PUSH, its two faults and its frame. `FILL = 64` holds in no well-formed state in ABSORB
(Obligations.StepKeepsWellFormedness); there is then no byte to write (Obligations.StopsByName). -/
def Obligations.PushEffect : Prop :=
  (∀ b : Byte, decodeCommand (0x2000 + b.setWidth 16) = .ok (.push b)) ∧
  ∀ (b : Byte) (s : State), s.ready = true →
    (s.st ≠ .absorb → exec (.push b) s = .next (raiseCommand .sequenceError s)) ∧
    (s.st = .absorb → s.len.toNat = 2 ^ 61 - 1 → exec (.push b) s = .next (raiseCommand .lengthOverflow s)) ∧
    (s.st = .absorb → s.len.toNat < 2 ^ 61 - 1 → s.fill.val < 64 →
      ∃ t, exec (.push b) s = .next t ∧ StoresByte s t s.fill.val b ∧ t.fill.val = s.fill.val + 1 ∧
        t.len.toNat = s.len.toNat + 1 ∧ t.padk = s.padk ∧ t.st = (if s.fill.val + 1 = 64 then .cload else .absorb) ∧
        t.rsp = s.rsp ++ [⟨false, 0x0000⟩] ∧ KeepsDigestState s t)

/-- 41_sequencer.md section 2, FINAL: the command's own effect and its fault. -/
def Obligations.FinalEffect : Prop :=
  ∀ s : State, s.ready = true →
    (s.st = .absorb →
      exec .final s = .next { s with fin := true, st := .pad80, rsp := s.rsp ++ [⟨false, 0x0000⟩] }) ∧
    (s.st ≠ .absorb → exec .final s = .next (raiseCommand .sequenceError s))

/-- 43_accumulator_serializer.md R184. -/
def Obligations.RdbEffect : Prop :=
  (∀ i : Byte, i.toNat ≤ 15 → decodeCommand (0x4000 + i.setWidth 16) = .ok (.rdb i)) ∧
  ∀ (i : Byte) (s : State), s.ready = true →
    (i.toNat ≤ 15 → s.st = .done →
      exec (.rdb i) s = .next { s with rsp := s.rsp ++ [⟨false, (digestByte s.h i.toNat).setWidth 16⟩] }) ∧
    (i.toNat ≤ 15 → s.st ≠ .done → exec (.rdb i) s = .next (raiseCommand .sequenceError s)) ∧
    (15 < i.toNat → exec (.rdb i) s = .next (raiseCommand .illegalCommand s))

/-- 43_accumulator_serializer.md R186. -/
def Obligations.RdhEffect : Prop :=
  (∀ j : Byte, j.toNat ≤ 31 → decodeCommand (0x5000 + j.setWidth 16) = .ok (.rdh j)) ∧
  ∀ (j : Byte) (s : State), s.ready = true →
    (j.toNat ≤ 31 → s.st = .done →
      exec (.rdh j) s = .next { s with rsp := s.rsp ++ [⟨false, (hexChar s.h j.toNat).setWidth 16⟩] }) ∧
    (j.toNat ≤ 31 → s.st ≠ .done → exec (.rdh j) s = .next (raiseCommand .sequenceError s)) ∧
    (31 < j.toNat → exec (.rdh j) s = .next (raiseCommand .illegalCommand s))

/-- 43_accumulator_serializer.md R188: STATUS, field by field, and RDS. -/
def Obligations.RdsReturnsStatus : Prop :=
  decodeCommand 0x6000 = .ok .rds ∧
  ∀ s : State,
    s.status.extractLsb' 0 4 = stCode s.st ∧ s.status.extractLsb' 4 3 = causeCode s.cause ∧
    s.status.getLsbD 7 = s.fin ∧ (s.status.extractLsb' 8 7).toNat = s.fill.val ∧ s.status.getLsbD 15 = false ∧
    (s.ready = true → exec .rds s = .next { s with rsp := s.rsp ++ [⟨false, s.status⟩] })

/-! ### The padding unit -/

/-- 40_padding.md R105. -/
def Obligations.Pad80Effect : Prop :=
  ∀ s : State, s.st = .pad80 → s.fill.val < 64 →
    ∃ t, exec .pad80 s = .next t ∧ StoresByte s t s.fill.val 0x80 ∧ t.fill.val = s.fill.val + 1 ∧ t.len = s.len ∧
      t.padk = s.padk ∧ t.st = (if s.fill.val + 1 = 64 then .cload else .padzero) ∧ t.rsp = s.rsp ∧
      KeepsDigestState s t

/-- 40_padding.md section 2, PADZERO: the step that finds `FILL = 56` and the step that appends a zero byte. -/
def Obligations.PadzeroEffect : Prop :=
  ∀ s : State, s.st = .padzero →
    (s.fill.val = 56 → exec .padzero s = .next { s with st := .padlen }) ∧
    (s.fill.val ≠ 56 → s.fill.val < 64 →
      ∃ t, exec .padzero s = .next t ∧ StoresByte s t s.fill.val 0x00 ∧ t.fill.val = s.fill.val + 1 ∧
        t.len = s.len ∧ t.padk = s.padk ∧ t.st = (if s.fill.val + 1 = 64 then .cload else .padzero) ∧
        t.rsp = s.rsp ∧ KeepsDigestState s t)

/-- 40_padding.md section 2, PADLEN: one byte of the length field; with `FILL = 56 + PADK` the eighth completes the
block. -/
def Obligations.PadlenEffect : Prop :=
  ∀ s : State, s.st = .padlen → s.padk.val < 8 → s.fill.val < 64 →
    ∃ t, exec .padlen s = .next t ∧
      StoresByte s t s.fill.val (BitVec.ofNat 8 (8 * s.len.toNat / 2 ^ (8 * s.padk.val) % 256)) ∧
      t.padk.val = s.padk.val + 1 ∧ t.fill.val = s.fill.val + 1 ∧ t.len = s.len ∧
      t.st = (if s.fill.val + 1 = 64 then .cload else .padlen) ∧
      (s.fill.val = 56 + s.padk.val → (t.st = .cload ↔ t.padk.val = 8)) ∧ t.rsp = s.rsp ∧ KeepsDigestState s t

/-! ### The accumulator -/

/-- 43_accumulator_serializer.md R180: CLOAD and its assertion. -/
def Obligations.CloadEffect : Prop :=
  ∀ s : State, s.st = .cload →
    (s.fill.val = 64 → exec .cload s = .next { s with w := s.h, rnd := 0, st := .round }) ∧
    (s.fill.val ≠ 64 → exec .cload s = .next { s with
      cause := if s.cause = .none then .alignAssert else s.cause
      st := .fault })

/-- 43_accumulator_serializer.md R181: CADD. The four sums are separate. -/
def Obligations.CaddEffect : Prop :=
  ∀ s : State, s.st = .cadd →
    exec .cadd s = .next { s with
      h := ⟨s.h.a + s.w.a, s.h.b + s.w.b, s.h.c + s.w.c, s.h.d + s.w.d⟩
      fill := 0
      st := if s.fin = false then .absorb else if s.padk.val = 8 then .done else .padzero }

/-- 42_round_datapath.md R160 to R164: the four ROUND micro-operations. -/
def Obligations.RoundEffects : Prop :=
  RoundEffect .roundP0 0 mix0 (fun i => i) [7, 12, 17, 22] ∧
  RoundEffect .roundP1 1 mix1 (fun i => (5 * i + 1) % 16) [5, 9, 14, 20] ∧
  RoundEffect .roundP2 2 mix2 (fun i => (3 * i + 5) % 16) [4, 11, 16, 23] ∧
  RoundEffect .roundP3 3 mix3 (fun i => (7 * i) % 16) [6, 10, 15, 21]

/-! ### The datapath -/

/-- 42_round_datapath.md R153 to R156: the four mixing functions bit by bit. -/
def Obligations.MixingFunctionsBitByBit : Prop :=
  ∀ (b c d : Word) (i : Nat), i < 32 →
    (mix0 b c d).getLsbD i = (if b.getLsbD i then c.getLsbD i else d.getLsbD i) ∧
    (mix1 b c d).getLsbD i = (if d.getLsbD i then b.getLsbD i else c.getLsbD i) ∧
    (mix2 b c d).getLsbD i = (b.getLsbD i ^^ c.getLsbD i ^^ d.getLsbD i) ∧
    (mix3 b c d).getLsbD i = (c.getLsbD i ^^ (b.getLsbD i || !d.getLsbD i))

/-- 42_round_datapath.md R151: bit `i` becomes bit `(i + s) mod 32`, by the formula of the rule; every amount of table
`S` is 4 to 23. -/
def Obligations.RotationMovesEveryBit : Prop :=
  (∀ (x : Word) (s : BitVec 5),
    (s ≠ 0 → (rotl x s).toNat = x.toNat * 2 ^ s.toNat % 2 ^ 32 + x.toNat / 2 ^ (32 - s.toNat)) ∧
    (s = 0 → rotl x s = x) ∧
    ∀ i, i < 32 → (rotl x s).getLsbD ((i + s.toNat) % 32) = x.getLsbD i) ∧
  ∀ i : BitVec 6, 4 ≤ (sTable i).toNat ∧ (sTable i).toNat ≤ 23

/-- 42_round_datapath.md R157: the tabulated schedule, a permutation of 0 to 15 in each phase; the position within the
phase gives the same values. -/
def Obligations.ScheduleUsesEachWordOncePerPhase : Prop :=
  (List.range 64).map schedOf =
    [0, 1, 2, 3, 4, 5, 6, 7, 8, 9, 10, 11, 12, 13, 14, 15,
     1, 6, 11, 0, 5, 10, 15, 4, 9, 14, 3, 8, 13, 2, 7, 12,
     5, 8, 11, 14, 1, 4, 7, 10, 13, 0, 3, 6, 9, 12, 15, 2,
     0, 7, 14, 5, 12, 3, 10, 1, 8, 15, 6, 13, 4, 11, 2, 9] ∧
  (∀ p, p < 4 → ∀ j, j < 16 → ∃ k, k < 16 ∧ schedOf (16 * p + k) = j ∧
    ∀ k', k' < 16 → schedOf (16 * p + k') = j → k' = k) ∧
  ∀ i, i < 16 → schedOf i = i ∧ schedOf (16 + i) = (5 * i + 1) % 16 ∧ schedOf (32 + i) = (3 * i + 5) % 16 ∧
    schedOf (48 + i) = (7 * i) % 16

/-- 20_memory.md R52 and section 2: a message word is the little-endian reading of its four bytes, and byte `4j + k` is
bits `8k + 7` to `8k` of it. -/
def Obligations.MessageWordsAreLittleEndian : Prop :=
  ∀ (buf : Memory) (j : Nat) (b0 b1 b2 b3 : Byte), readByte buf (4 * j) = some b0 → readByte buf (4 * j + 1) = some b1 →
    readByte buf (4 * j + 2) = some b2 → readByte buf (4 * j + 3) = some b3 →
    ∃ m, messageWord buf j = some m ∧
      m.toNat = b0.toNat + b1.toNat * 2 ^ 8 + b2.toNat * 2 ^ 16 + b3.toNat * 2 ^ 24 ∧
      m.extractLsb' 0 8 = b0 ∧ m.extractLsb' 8 8 = b1 ∧ m.extractLsb' 16 8 = b2 ∧ m.extractLsb' 24 8 = b3

/-- 43_accumulator_serializer.md R183: the `DIGEST` view. -/
def Obligations.DigestViewIsLittleEndian : Prop :=
  ∀ (h : Quad) (i : Nat), i < 16 →
    (serialize h)[i]? = some (digestByte h i) ∧
    (digestByte h i).toNat =
      ((if i / 4 = 0 then h.a else if i / 4 = 1 then h.b else if i / 4 = 2 then h.c else h.d).toNat /
        2 ^ (8 * (i % 4))) % 256

/-- 43_accumulator_serializer.md R185, R187: the `HEX` view and its character codes; the 32 characters are the hex
rendering of the 16 digest bytes. -/
def Obligations.HexViewRendersDigest : Prop :=
  (∀ n : BitVec 4, (hexCode n).toNat = if n.toNat < 10 then 0x30 + n.toNat else 0x61 + (n.toNat - 10)) ∧
  (∀ (h : Quad) (j : Nat), j < 32 →
    (j % 2 = 0 → hexChar h j = hexCode (BitVec.ofNat 4 ((digestByte h (j / 2)).toNat / 16))) ∧
    (j % 2 = 1 → hexChar h j = hexCode (BitVec.ofNat 4 ((digestByte h (j / 2)).toNat % 16)))) ∧
  ∀ h : Quad, (serialize h).length = 16 ∧ hexOf (serialize h) = (List.range 32).map (hexChar h)

/-- 41_sequencer.md section 5: for every message the digest has 16 bytes and its hex form 32 lowercase hex
characters. Over `2^61 - 1` bytes it is the model's total function that has them (notes/assumptions/19.md). -/
def Obligations.DigestHasSixteenBytes : Prop :=
  ∀ m : List Byte, (md5 m).length = 16 ∧ (md5hex m).length = 32 ∧
    ∀ c, c ∈ md5hex m → (0x30 ≤ c.toNat ∧ c.toNat ≤ 0x39) ∨ (0x61 ≤ c.toNat ∧ c.toNat ≤ 0x66)

/-! ### Faults -/

/-- 60_exceptions.md R206: fault entry, and nothing but `CAUSE` and `ST` changes in a step that ends in FAULT. -/
def Obligations.FaultEntryWritesCauseAndStateOnly : Prop :=
  (∀ (c : Cause) (s : State),
    raise c s = { s with cause := if s.cause = .none then c else s.cause, st := .fault } ∧
    raiseCommand c s = { s with
      cause := if s.cause = .none then c else s.cause
      st := .fault
      rsp := s.rsp ++ [⟨true, 0x0000⟩] } ∧
    (raise c s).faultOut = true ∧ (raiseCommand c s).faultOut = true) ∧
  ∀ s t : State, step s = .next t → t.st = .fault →
    t.h = s.h ∧ t.w = s.w ∧ t.buf = s.buf ∧ t.fill = s.fill ∧ t.len = s.len ∧ t.fin = s.fin ∧ t.padk = s.padk ∧
      t.rnd = s.rnd ∧ (s.cause ≠ .none → t.cause = s.cause) ∧ t.resets = s.resets

/-- 30_encoding.md R81: a legal word in a state where its command is not legal. -/
def Obligations.SequenceErrors : Prop :=
  ∀ (i : Instr) (s : State), i.wf = true →
    (((∃ b, i = .push b) ∨ i = .final) ∧ (s.st = .idle ∨ s.st = .done ∨ s.st = .fault)) ∨
      (((∃ k, i = .rdb k) ∨ ∃ k, i = .rdh k) ∧ (s.st = .idle ∨ s.st = .absorb ∨ s.st = .fault)) →
    exec i s = .next { s with
      cause := if s.cause = .none then .sequenceError else s.cause
      st := .fault
      rsp := s.rsp ++ [⟨true, 0x0000⟩] }

/-- 60_exceptions.md section 2, priority: that of faults, and of reset over them (the script is the model's,
notes/assumptions/2.md). -/
def Obligations.FaultPriority : Prop :=
  ∀ (s t : State) (w : CommandWord), s.cause = .none → s.ready = true → step s = .next t →
    (∀ rest, s.host = .hold w :: rest →
      (IllegalWord w → t.cause = .illegalCommand) ∧
      (∀ b, decodeCommand w = .ok (.push b) → s.st ≠ .absorb → t.cause = .sequenceError) ∧
      (∀ b, decodeCommand w = .ok (.push b) → s.st = .absorb → s.len.toNat = 2 ^ 61 - 1 → t.cause = .lengthOverflow) ∧
      t.cause ≠ .alignAssert) ∧
    (∀ rest, s.host = .reset :: .hold w :: rest → t.cause = .none ∧ t.st = .idle ∧ t.host = .hold w :: rest)

/-- 60_exceptions.md R208: the fault state. NOP, RDS and INIT work; every other word changes nothing but that it is
answered. -/
def Obligations.OnlyInitLeavesFault : Prop :=
  ∀ (s : State) (w : CommandWord), s.st = .fault → s.cause ≠ .none →
    (decodeCommand w = .ok .nop → acceptWord w s = .next { s with rsp := s.rsp ++ [⟨false, 0x0000⟩] }) ∧
    (decodeCommand w = .ok .rds → acceptWord w s = .next { s with rsp := s.rsp ++ [⟨false, s.status⟩] }) ∧
    (decodeCommand w = .ok .init → ∃ t, acceptWord w s = .next t ∧ t.st = .absorb ∧ t.cause = .none) ∧
    (decodeCommand w ≠ .ok .nop → decodeCommand w ≠ .ok .rds → decodeCommand w ≠ .ok .init →
      acceptWord w s = .next { s with rsp := s.rsp ++ [⟨true, 0x0000⟩] })

/-- The model's own stops (notes/assumptions/6.md, 8.md, 9.md; 93_implementation_defined.md part 1, U4): a round that
reads a byte without a value, a byte write with no byte left in the buffer, a micro-operation asked for where it is not
enabled. -/
def Obligations.StopsByName : Prop :=
  (∀ s : State, s.st = .round → messageWord s.buf (schedOf s.rnd.toNat) = none →
    exec (roundOfPhase (phaseOf s.rnd)) s = .fault .unwrittenByte) ∧
  (∀ (s : State) (b : Byte), s.fill.val = 64 →
    (s.st = .absorb → s.len.toNat ≠ 2 ^ 61 - 1 → exec (.push b) s = .fault .bufferIndex) ∧
    (s.st = .pad80 → exec .pad80 s = .fault .bufferIndex) ∧
    (s.st = .padzero → exec .padzero s = .fault .bufferIndex) ∧
    (s.st = .padlen → s.padk.val < 8 → exec .padlen s = .fault .bufferIndex)) ∧
  (∀ s : State,
    (s.st ≠ .pad80 → exec .pad80 s = .refused .notEnabled) ∧
    (s.st ≠ .padzero → exec .padzero s = .refused .notEnabled) ∧
    (s.st ≠ .padlen ∨ s.padk.val = 8 → exec .padlen s = .refused .notEnabled) ∧
    (s.st ≠ .cload → exec .cload s = .refused .notEnabled) ∧
    (s.st ≠ .round ∨ phaseOf s.rnd ≠ 0 → exec .roundP0 s = .refused .notEnabled) ∧
    (s.st ≠ .round ∨ phaseOf s.rnd ≠ 1 → exec .roundP1 s = .refused .notEnabled) ∧
    (s.st ≠ .round ∨ phaseOf s.rnd ≠ 2 → exec .roundP2 s = .refused .notEnabled) ∧
    (s.st ≠ .round ∨ phaseOf s.rnd ≠ 3 → exec .roundP3 s = .refused .notEnabled) ∧
    (s.st ≠ .cadd → exec .cadd s = .refused .notEnabled))

/-! ### Rules over all steps -/

/-- 41_sequencer.md section 4: every transition there is. -/
def Obligations.TransitionTable : Prop :=
  ∀ s t : State, step s = .next t →
    (resetAsserted s.host = true → t.st = .idle) ∧
    (∀ w : CommandWord, s.ready = true → Presents s w →
      t.st = commandTarget s (acceptedInstr (decodeCommand w))) ∧
    (s.ready = true → s.host = [] ∨ (∃ rest, s.host = .quiet :: rest) → t.st = s.st) ∧
    (s.ready = false → resetAsserted s.host = false → t.st = microTarget s)

/-- 41_sequencer.md R126: a step that brings `FILL` to 64 moves to CLOAD, and CLOAD is entered in no other way. -/
def Obligations.FullBlockStartsCompression : Prop :=
  ∀ s t : State, step s = .next t →
    (t.fill.val = 64 → s.fill.val ≠ 64 → t.st = .cload) ∧
    (t.st = .cload → s.st ≠ .cload → s.fill.val = 63 ∧ t.fill.val = 64)

/-- 10_state.md sections 2 and 4 ("written by"): who writes the hash state, `LEN`, `FIN` and `CAUSE`: INIT, and beside it
CADD, an accepted PUSH, an accepted FINAL and a first fault. -/
def Obligations.WritersOfTheRegisters : Prop :=
  ∀ s t : State, step s = .next t → resetAsserted s.host = false →
    (t.h ≠ s.h → InitAccepted s ∨ s.st = .cadd) ∧
    (t.len ≠ s.len → (InitAccepted s ∧ t.len = 0) ∨
      ∃ b : Byte, s.ready = true ∧ Presents s (0x2000 + b.setWidth 16) ∧ s.st = .absorb ∧
        t.len.toNat = s.len.toNat + 1) ∧
    (t.fin ≠ s.fin → (InitAccepted s ∧ t.fin = false) ∨
      (s.ready = true ∧ Presents s 0x3000 ∧ s.st = .absorb ∧ t.st = .pad80 ∧ t.fin = true)) ∧
    (t.cause ≠ s.cause → (InitAccepted s ∧ t.cause = .none) ∨ (s.cause = .none ∧ t.st = .fault))

/-- 43_accumulator_serializer.md section 2: the digest is stable. In DONE an accepted word other than INIT leaves the hash
state, and one that does not fault leaves everything but the responses. -/
def Obligations.DigestIsStable : Prop :=
  ∀ (s t : State) (w : CommandWord) (rest : List HostEvent), s.st = .done → s.host = .hold w :: rest →
    step s = .next t → w ≠ 0x1000 →
    t.h = s.h ∧ (t.st ≠ .fault → ∃ r, t = { s with host := rest, rsp := s.rsp ++ [r] })

/-- 41_sequencer.md section 5, determinism: states that agree on the control state, the inputs, the responses and the
live data take the same steps, whatever the rest of their data (the unspecified reset values, a previous digest). -/
def Obligations.DeadDataIsNeverSeen : Prop :=
  ∀ s t : State, SameBehaviour s t →
    (∀ s', step s = .next s' → ∃ t', step t = .next t' ∧ SameBehaviour s' t') ∧
    (∀ f, step s = .fault f → step t = .fault f) ∧
    (∀ r, step s = .refused r → step t = .refused r)

/-! ### Padding -/

/-- 40_padding.md section 1: `Pad`, with the fewest zero bytes that reach 56 modulo 64. The length field is R103's for the
messages the spec pads, up to `2^61 - 1` bytes. Of longer ones the clauses after the first speak as of the model's total
function, whose length field is then free (notes/assumptions/19.md). -/
def Obligations.PaddingAddsFewestZeros : Prop :=
  ∀ m : List Byte,
    (m.length ≤ 2 ^ 61 - 1 →
      pad m = m ++ [0x80] ++ List.replicate (zeroCount m.length) 0x00 ++ (List.range 8).map (lengthByte m.length)) ∧
    pad m = m ++ [0x80] ++ List.replicate (zeroCount m.length) 0x00 ++ lenField m.length ∧
    zeroCount m.length < 64 ∧ ((zeroCount m.length : Int) = (55 - (m.length : Int)) % 64) ∧
    (m.length + 1 + zeroCount m.length) % 64 = 56 ∧
    ∀ z, z < zeroCount m.length → (m.length + 1 + z) % 64 ≠ 56

/-- 40_padding.md section 1: the size of the padded message. Over `2^61 - 1` bytes, where the spec pads nothing, it is the
size of the model's total function (notes/assumptions/19.md). -/
def Obligations.PaddedLength : Prop :=
  ∀ m : List Byte,
    (pad m).length = m.length + 1 + zeroCount m.length + 8 ∧ (pad m).length = 64 * blockCount m.length ∧
    1 ≤ blockCount m.length ∧ m.length + 9 ≤ (pad m).length ∧ (pad m).length ≤ m.length + 72

/-- 40_padding.md R109: `Pad` encodes the message recoverably. -/
def Obligations.PaddingIsRecoverable : Prop :=
  ∀ m : List Byte, m.length ≤ 2 ^ 61 - 1 →
    littleEndian ((pad m).drop ((pad m).length - 8)) = 8 * m.length ∧
    (pad m).take (littleEndian ((pad m).drop ((pad m).length - 8)) / 8) = m

/-! ### What the engine computes -/

/-- 41_sequencer.md R128: from CLOAD with a full block the sequencer runs CLOAD, 64 rounds and CADD, and the effect on
the hash state is `Compress`. `waiting s.host = s.host` says that the host presents nothing or holds a word. -/
def Obligations.BlockIsCompressed : Prop :=
  ∀ (s : State) (block : List Byte), s.st = .cload → s.fill.val = 64 → HoldsBlock s.buf block →
    resetAsserted s.host = false → waiting s.host = s.host →
    (∀ i, i < 64 → ∃ t, runSteps (1 + i) s = .next t ∧ t.st = .round ∧ t.rnd.toNat = i ∧ t.h = s.h) ∧
    (∃ t, runSteps 65 s = .next t ∧ t.st = .cadd ∧ t.h = s.h) ∧
    runSteps 66 s = .next { s with
      h := compress s.h block
      w := compressRounds block 64 s.h
      fill := 0
      rnd := 63
      st := if s.fin = false then .absorb else if s.padk.val = 8 then .done else .padzero }

/-- 41_sequencer.md section 5 and 40_padding.md section 1, streaming: INIT starts the empty message, and each PUSH with the
micro-operations it starts extends the message by its byte, the whole blocks of it compressed in order and the tail of it
in BUF. -/
def Obligations.PushExtendsTheMessage : Prop :=
  (∀ s : State, s.ready = true → ∃ t, exec .init s = .next t ∧ Absorbed t []) ∧
  ∀ (s : State) (m : List Byte) (b : Byte), Absorbed s m → m.length < 2 ^ 61 - 1 → s.host = [] →
    ∃ t, bigStep (0x2000 + b.setWidth 16) s = .next t ∧ Absorbed t (m ++ [b])

/-- 41_sequencer.md section 5: from any ready state, INIT, the bytes of any message and FINAL end in DONE with the MD5
state of the message, which RDB and RDH then read. -/
def Obligations.EngineComputesMd5 : Prop :=
  ∀ (m : List Byte) (s : State), m.length ≤ 2 ^ 61 - 1 → s.ready = true → s.host = digestInputs m →
    ∃ k t, runSteps k s = .next t ∧ t.st = .done ∧ t.cause = .none ∧ t.h = finalHash m ∧ t.host = [] ∧
      (∀ i, i < 16 → exec (.rdb (BitVec.ofNat 8 i)) t =
        .next { t with rsp := t.rsp ++ [⟨false, ((md5 m).getD i 0).setWidth 16⟩] }) ∧
      (∀ j, j < 32 → exec (.rdh (BitVec.ofNat 8 j)) t =
        .next { t with rsp := t.rsp ++ [⟨false, ((md5hex m).getD j 0).setWidth 16⟩] })

/-- 41_sequencer.md section 6 and 70_reset_and_hazards.md section 4: every micro-operation brings the engine one nearer
to a ready state, which is at most 205 away. -/
def Obligations.BusyPeriodsEnd : Prop :=
  ∀ s : State, s.Inv →
    microOpsLeft s ≤ 205 ∧ (microOpsLeft s = 0 ↔ s.ready = true) ∧
    (s.ready = false → resetAsserted s.host = false →
      ∃ t, step s = .next t ∧ microOpsLeft s = microOpsLeft t + 1) ∧
    (resetAsserted s.host = false → waiting s.host = s.host →
      ∃ t, runSteps (microOpsLeft s) s = .next t ∧ t.ready = true)

/-- 41_sequencer.md section 6: a run of a program cannot hang. It is over after at most 206 steps a word and 205 before the
first, every word is answered once, and its outcome is good or faulted. The program's words are held by the host one
after another (notes/assumptions/2.md); that a step is one word or one micro-operation is notes/assumptions/14.md. -/
def Obligations.RunsEnd : Prop :=
  ∀ (s : State) (ws : List CommandWord), s.Inv → s.host = ws.map .hold →
    ∃ k t, k ≤ 205 + 206 * ws.length ∧ runSteps k s = .next t ∧ t.over = true ∧
      (t.good = true ∨ t.faulted = true) ∧ t.rsp.length = s.rsp.length + ws.length

/-- 70_reset_and_hazards.md section 4 and 41_sequencer.md section 2: what FINAL starts, and that it ends in DONE. -/
def Obligations.FinalEndsInDone : Prop :=
  ∀ s : State, s.Inv → s.st = .absorb → s.host = [] →
    ∃ t u, exec .final s = .next t ∧
      microOpsLeft t = 1 + (zeroCount s.len.toNat + 1) + 8 + 66 * (if s.len.toNat % 64 ≤ 55 then 1 else 2) ∧
      runSteps (microOpsLeft t) t = .next u ∧ u.st = .done ∧ u.cause = .none ∧ u.len = s.len

/-- 41_sequencer.md section 6: the big step of a command word is the small steps it stands for, up to the next ready
state. The host sends nothing else in between: no reset event happens (notes/assumptions/20.md). -/
def Obligations.BigStepIsSmallSteps : Prop :=
  ∀ (s : State) (w : CommandWord), s.Inv → s.ready = true → s.host = [] →
    ∃ k t, k ≤ 205 ∧ bigStep w s = .next t ∧ t.ready = true ∧ runSteps (k + 1) { s with host := [.hold w] } = .next t

/-! ### Program text -/

/-- 30_encoding.md R87: the expansions of the pseudo-instructions. -/
def Obligations.PseudoInstructionsExpand : Prop :=
  (∀ text : List Char, text.all isTextChar = true →
    expandLine (.pushs text) = text.map (fun c => .hold (BitVec.ofNat 16 (0x2000 + c.toNat))) ∧
    expandLine (.hash text) =
      [.hold 0x1000] ++ text.map (fun c => .hold (BitVec.ofNat 16 (0x2000 + c.toNat))) ++ [.hold 0x3000] ++
        (List.range 32).map (fun j => .hold (BitVec.ofNat 16 (0x5000 + j)))) ∧
  (∀ (n : Nat) (b : Byte),
    expandLine (.pushn n b) = List.replicate n (.hold (BitVec.ofNat 16 (0x2000 + b.toNat)))) ∧
  expandLine .digest = (List.range 16).map (fun i => .hold (BitVec.ofNat 16 (0x4000 + i))) ∧
  expandLine .hexdigest = (List.range 32).map (fun j => .hold (BitVec.ofNat 16 (0x5000 + j)))
end

