-- ==== Sys2Proof/Laws/Decode.lean ====
section
/-! SUPPORT. The fields of command words and control words, and the micro-operation of each busy state. -/

namespace Sys2Proof

@[simp] theorem opField_commandWord (op : BitVec 4) (imm : Byte) : opField (commandWord op imm) = op := by
  apply BitVec.eq_of_getLsbD_eq
  intro i hi
  simp only [opField, commandWord, BitVec.getLsbD_extractLsb', BitVec.getLsbD_append]
  rw [if_neg (by omega), if_neg (by omega), show 12 + i - 8 - 4 = i by omega]
  simp [hi]

@[simp] theorem rsvField_commandWord (op : BitVec 4) (imm : Byte) : rsvField (commandWord op imm) = 0 := by
  apply BitVec.eq_of_getLsbD_eq
  intro i hi
  simp only [rsvField, commandWord, BitVec.getLsbD_extractLsb', BitVec.getLsbD_append]
  rw [if_neg (by omega), if_pos (by omega)]
  simp

@[simp] theorem immField_commandWord (op : BitVec 4) (imm : Byte) : immField (commandWord op imm) = imm := by
  apply BitVec.eq_of_getLsbD_eq
  intro i hi
  simp only [immField, commandWord, BitVec.getLsbD_extractLsb', BitVec.getLsbD_append]
  simp [hi]

/-- A command word is made of its fields when `RSV` is 0. -/
theorem commandWord_fields (w : CommandWord) (h : rsvField w = 0) : commandWord (opField w) (immField w) = w := by
  have hr : ∀ i, i < 4 → w.getLsbD (8 + i) = false := by
    intro i hi
    have := congrArg (fun v : BitVec 4 => v.getLsbD i) h
    simpa [rsvField, BitVec.getLsbD_extractLsb', hi] using this
  apply BitVec.eq_of_getLsbD_eq
  intro i hi
  simp only [commandWord, opField, immField, BitVec.getLsbD_append, BitVec.getLsbD_extractLsb']
  by_cases h1 : i < 8
  · simp [h1]
  · by_cases h2 : i - 8 < 4
    · have := hr (i - 8) h2
      rw [show 8 + (i - 8) = i by omega] at this
      simp [h1, h2, this]
    · simp [h1, h2, show i - 8 - 4 < 4 by omega, show 12 + (i - 8 - 4) = i by omega]

@[simp] theorem stField_append (c : BitVec 4) (r : BitVec 6) : stField (c ++ r) = c := by
  apply BitVec.eq_of_getLsbD_eq
  intro i hi
  simp only [stField, BitVec.getLsbD_extractLsb', BitVec.getLsbD_append]
  simp [hi, show ¬ (6 + i < 6) by omega, show 6 + i - 6 = i by omega]

@[simp] theorem rndField_append (c : BitVec 4) (r : BitVec 6) : rndField (c ++ r) = r := by
  apply BitVec.eq_of_getLsbD_eq
  intro i hi
  simp only [rndField, BitVec.getLsbD_extractLsb', BitVec.getLsbD_append]
  simp [hi]

/-- A mask over a word, byte by byte: for the match and mask columns of 30_encoding.md R74. -/
theorem mask_bytes (hi lo a b c d : Byte) : (hi ++ lo) &&& (a ++ b) = c ++ d ↔ hi &&& a = c ∧ lo &&& b = d := by
  rw [BitVec.and_append]
  constructor
  · intro h
    constructor
    · apply BitVec.eq_of_getLsbD_eq
      intro i hi
      have := congrArg (fun v : BitVec 16 => v.getLsbD (i + 8)) h
      simpa only [BitVec.getLsbD_append, show ¬ (i + 8 < 8) by omega, if_false, Nat.add_sub_cancel, hi] using this
    · apply BitVec.eq_of_getLsbD_eq
      intro i hi
      have := congrArg (fun v : BitVec 16 => v.getLsbD i) h
      simpa only [BitVec.getLsbD_append, hi, if_true] using this
  · rintro ⟨rfl, rfl⟩; rfl

namespace Machine

/-- The micro-operation a busy state enables (30_encoding.md R84). -/
def enabledMicro (s : State) : Instr :=
  match s.st with
  | .pad80 => .pad80
  | .padzero => .padzero
  | .padlen => .padlen
  | .cload => .cload
  | .round => roundOfPhase (phaseOf s.rnd)
  | _ => .cadd

theorem roundOfPhase_isCommand (p : BitVec 2) : (roundOfPhase p).isCommand = false := by
  revert p; decide

/-- What a busy state enables is no command. -/
theorem enabledMicro_isCommand (s : State) : (enabledMicro s).isCommand = false := by
  unfold enabledMicro
  cases s.st <;> first | rfl | exact roundOfPhase_isCommand _

/-- The control word of a busy state always selects a micro-operation. -/
theorem decodeMicro_controlWord {s : State} (h : s.ready = false) :
    decodeMicro s.controlWord = .ok (enabledMicro s) := by
  have h' : readyState s.st = false := h
  unfold State.controlWord enabledMicro decodeMicro
  rw [stField_append, rndField_append]
  cases hs : s.st <;> simp_all [readyState, stCode]

theorem decodeMicro_ready {s : State} (h : s.ready = true) : decodeMicro s.controlWord = .error .readyState := by
  have h' : readyState s.st = true := h
  unfold State.controlWord decodeMicro
  rw [stField_append]
  cases hs : s.st <;> simp_all [readyState, stCode]

end Machine

end Sys2Proof
end

