-- ==== Sys2Proof/Laws/Memory.lean ====
section
/-! SUPPORT. The block buffer: a read after a write, and the canonical form, which every write keeps. -/

namespace Sys2Proof.Machine

@[simp] theorem readByte_nil (i : Nat) : readByte [] i = none := rfl

@[simp] theorem readByte_writeByte_same (m : Memory) (i : Nat) (v : Byte) :
    readByte (writeByte m i v) i = some v := by
  induction m with
  | nil => simp [writeByte, readByte]
  | cons c m ih =>
    obtain ⟨a, b⟩ := c
    by_cases h1 : i < a
    · simp [writeByte, readByte, h1]
    · by_cases h2 : i = a
      · simp [writeByte, readByte, h2]
      · simp [writeByte, readByte, h1, h2, ih]

theorem readByte_writeByte_ne (m : Memory) {i j : Nat} (v : Byte) (hij : j ≠ i) :
    readByte (writeByte m i v) j = readByte m j := by
  induction m with
  | nil => simp [writeByte, readByte, hij]
  | cons c m ih =>
    obtain ⟨a, b⟩ := c
    by_cases h1 : i < a
    · simp [writeByte, readByte, h1, hij]
    · by_cases h2 : i = a
      · subst h2; simp [writeByte, readByte, hij]
      · simp [writeByte, readByte, h1, h2, ih]

theorem readByte_writeByte (m : Memory) (i j : Nat) (v : Byte) :
    readByte (writeByte m i v) j = if j = i then some v else readByte m j := by
  split
  · next h => subst h; exact readByte_writeByte_same m j v
  · next h => exact readByte_writeByte_ne m v h

theorem risingFrom_writeByte (m : Memory) (i low : Nat) (v : Byte) (hl : low ≤ i) (hm : risingFrom low m = true) :
    risingFrom low (writeByte m i v) = true := by
  induction m generalizing low with
  | nil => simp [writeByte, risingFrom, hl]
  | cons c m ih =>
    obtain ⟨a, b⟩ := c
    simp only [risingFrom, Bool.and_eq_true, decide_eq_true_eq] at hm
    by_cases h1 : i < a
    · have h2 : i + 1 ≤ a := h1
      simp [writeByte, risingFrom, h1, hl, h2, hm.2]
    · by_cases h2 : i = a
      · subst h2; simp [writeByte, risingFrom, hl, hm.2]
      · have h3 : a + 1 ≤ i := by omega
        simp [writeByte, risingFrom, h1, h2, hm.1, ih (a + 1) h3 hm.2]

theorem all_writeByte (m : Memory) (i : Nat) (v : Byte) (p : Host.Cell → Bool) (hp : p (i, v) = true)
    (hm : m.all p = true) : (writeByte m i v).all p = true := by
  induction m with
  | nil => simp [writeByte, hp]
  | cons c m ih =>
    obtain ⟨a, b⟩ := c
    simp only [List.all_cons, Bool.and_eq_true] at hm
    by_cases h1 : i < a
    · simp [writeByte, h1, hp, hm.1]; simpa using hm.2
    · by_cases h2 : i = a
      · subst h2; simp [writeByte, hp]; simpa using hm.2
      · have := ih hm.2
        simp [writeByte, h1, h2, hm.1]; simpa using this

/-- Writing a byte of the buffer keeps the canonical form. -/
theorem wf_writeByte (m : Memory) (i : Nat) (v : Byte) (hi : i < 64) (hm : Memory.wf m = true) :
    Memory.wf (writeByte m i v) = true := by
  simp only [Memory.wf, Bool.and_eq_true] at hm ⊢
  exact ⟨risingFrom_writeByte m i 0 v (Nat.zero_le _) hm.1, all_writeByte m i v _ (by simpa using hi) hm.2⟩

theorem wf_nil : Memory.wf [] = true := rfl

/-- The word of four written bytes. -/
theorem messageWord_some {m : Memory} {j : Nat} {b0 b1 b2 b3 : Byte} (h0 : readByte m (4 * j) = some b0)
    (h1 : readByte m (4 * j + 1) = some b1) (h2 : readByte m (4 * j + 2) = some b2)
    (h3 : readByte m (4 * j + 3) = some b3) : messageWord m j = some (wordOfBytes b0 b1 b2 b3) := by
  simp [messageWord, h0, h1, h2, h3]

/-- A word read depends on the four bytes of the word only. -/
theorem messageWord_congr {m m' : Memory} {j : Nat}
    (h : ∀ k, k < 4 → readByte m (4 * j + k) = readByte m' (4 * j + k)) : messageWord m j = messageWord m' j := by
  have h0 := h 0 (by omega)
  have h1 := h 1 (by omega)
  have h2 := h 2 (by omega)
  have h3 := h 3 (by omega)
  simp only [Nat.add_zero] at h0
  simp only [messageWord, h0, h1, h2, h3]

end Sys2Proof.Machine
end

