-- ==== Sys2Proof/Laws/State.lean ====
section
/-! SUPPORT. The shared updates of the state, field by field: one lemma per field per update, true by unfolding, so that no
later proof unfolds a record update. -/

namespace Sys2Proof.Machine

/-! ### `respond` -/

@[simp] theorem respond_h (r : Response) (s : State) : (respond r s).h = s.h := rfl
@[simp] theorem respond_w (r : Response) (s : State) : (respond r s).w = s.w := rfl
@[simp] theorem respond_buf (r : Response) (s : State) : (respond r s).buf = s.buf := rfl
@[simp] theorem respond_fill (r : Response) (s : State) : (respond r s).fill = s.fill := rfl
@[simp] theorem respond_len (r : Response) (s : State) : (respond r s).len = s.len := rfl
@[simp] theorem respond_fin (r : Response) (s : State) : (respond r s).fin = s.fin := rfl
@[simp] theorem respond_padk (r : Response) (s : State) : (respond r s).padk = s.padk := rfl
@[simp] theorem respond_rnd (r : Response) (s : State) : (respond r s).rnd = s.rnd := rfl
@[simp] theorem respond_st (r : Response) (s : State) : (respond r s).st = s.st := rfl
@[simp] theorem respond_cause (r : Response) (s : State) : (respond r s).cause = s.cause := rfl
@[simp] theorem respond_host (r : Response) (s : State) : (respond r s).host = s.host := rfl
@[simp] theorem respond_rsp (r : Response) (s : State) : (respond r s).rsp = s.rsp ++ [r] := rfl
@[simp] theorem respond_resets (r : Response) (s : State) : (respond r s).resets = s.resets := rfl

/-! ### `respondDone` -/

@[simp] theorem respondDone_h (s : State) : (respondDone s).h = s.h := rfl
@[simp] theorem respondDone_w (s : State) : (respondDone s).w = s.w := rfl
@[simp] theorem respondDone_buf (s : State) : (respondDone s).buf = s.buf := rfl
@[simp] theorem respondDone_fill (s : State) : (respondDone s).fill = s.fill := rfl
@[simp] theorem respondDone_len (s : State) : (respondDone s).len = s.len := rfl
@[simp] theorem respondDone_fin (s : State) : (respondDone s).fin = s.fin := rfl
@[simp] theorem respondDone_padk (s : State) : (respondDone s).padk = s.padk := rfl
@[simp] theorem respondDone_rnd (s : State) : (respondDone s).rnd = s.rnd := rfl
@[simp] theorem respondDone_st (s : State) : (respondDone s).st = s.st := rfl
@[simp] theorem respondDone_cause (s : State) : (respondDone s).cause = s.cause := rfl
@[simp] theorem respondDone_host (s : State) : (respondDone s).host = s.host := rfl
@[simp] theorem respondDone_rsp (s : State) : (respondDone s).rsp = s.rsp ++ [⟨false, 0⟩] := rfl
@[simp] theorem respondDone_resets (s : State) : (respondDone s).resets = s.resets := rfl

/-! ### `raise` -/

@[simp] theorem raise_h (c : Cause) (s : State) : (raise c s).h = s.h := rfl
@[simp] theorem raise_w (c : Cause) (s : State) : (raise c s).w = s.w := rfl
@[simp] theorem raise_buf (c : Cause) (s : State) : (raise c s).buf = s.buf := rfl
@[simp] theorem raise_fill (c : Cause) (s : State) : (raise c s).fill = s.fill := rfl
@[simp] theorem raise_len (c : Cause) (s : State) : (raise c s).len = s.len := rfl
@[simp] theorem raise_fin (c : Cause) (s : State) : (raise c s).fin = s.fin := rfl
@[simp] theorem raise_padk (c : Cause) (s : State) : (raise c s).padk = s.padk := rfl
@[simp] theorem raise_rnd (c : Cause) (s : State) : (raise c s).rnd = s.rnd := rfl
@[simp] theorem raise_st (c : Cause) (s : State) : (raise c s).st = .fault := rfl
@[simp] theorem raise_cause (c : Cause) (s : State) : (raise c s).cause = if s.cause = .none then c else s.cause := rfl
@[simp] theorem raise_host (c : Cause) (s : State) : (raise c s).host = s.host := rfl
@[simp] theorem raise_rsp (c : Cause) (s : State) : (raise c s).rsp = s.rsp := rfl
@[simp] theorem raise_resets (c : Cause) (s : State) : (raise c s).resets = s.resets := rfl

/-! ### `raiseCommand` -/

@[simp] theorem raiseCommand_h (c : Cause) (s : State) : (raiseCommand c s).h = s.h := rfl
@[simp] theorem raiseCommand_w (c : Cause) (s : State) : (raiseCommand c s).w = s.w := rfl
@[simp] theorem raiseCommand_buf (c : Cause) (s : State) : (raiseCommand c s).buf = s.buf := rfl
@[simp] theorem raiseCommand_fill (c : Cause) (s : State) : (raiseCommand c s).fill = s.fill := rfl
@[simp] theorem raiseCommand_len (c : Cause) (s : State) : (raiseCommand c s).len = s.len := rfl
@[simp] theorem raiseCommand_fin (c : Cause) (s : State) : (raiseCommand c s).fin = s.fin := rfl
@[simp] theorem raiseCommand_padk (c : Cause) (s : State) : (raiseCommand c s).padk = s.padk := rfl
@[simp] theorem raiseCommand_rnd (c : Cause) (s : State) : (raiseCommand c s).rnd = s.rnd := rfl
@[simp] theorem raiseCommand_st (c : Cause) (s : State) : (raiseCommand c s).st = .fault := rfl
@[simp] theorem raiseCommand_cause (c : Cause) (s : State) : (raiseCommand c s).cause = if s.cause = .none then c else s.cause := rfl
@[simp] theorem raiseCommand_host (c : Cause) (s : State) : (raiseCommand c s).host = s.host := rfl
@[simp] theorem raiseCommand_rsp (c : Cause) (s : State) : (raiseCommand c s).rsp = s.rsp ++ [⟨true, 0⟩] := rfl
@[simp] theorem raiseCommand_resets (c : Cause) (s : State) : (raiseCommand c s).resets = s.resets := rfl

/-! ### `resetEvent` -/

@[simp] theorem resetEvent_h (s : State) : (resetEvent s).h = resetHash (s.resets + 1) := rfl
@[simp] theorem resetEvent_w (s : State) : (resetEvent s).w = resetLocal (s.resets + 1) := rfl
@[simp] theorem resetEvent_buf (s : State) : (resetEvent s).buf = [] := rfl
@[simp] theorem resetEvent_fill (s : State) : (resetEvent s).fill = 0 := rfl
@[simp] theorem resetEvent_len (s : State) : (resetEvent s).len = 0 := rfl
@[simp] theorem resetEvent_fin (s : State) : (resetEvent s).fin = false := rfl
@[simp] theorem resetEvent_padk (s : State) : (resetEvent s).padk = 0 := rfl
@[simp] theorem resetEvent_rnd (s : State) : (resetEvent s).rnd = 0 := rfl
@[simp] theorem resetEvent_st (s : State) : (resetEvent s).st = .idle := rfl
@[simp] theorem resetEvent_cause (s : State) : (resetEvent s).cause = .none := rfl
@[simp] theorem resetEvent_host (s : State) : (resetEvent s).host = s.host := rfl
@[simp] theorem resetEvent_rsp (s : State) : (resetEvent s).rsp = s.rsp := rfl
@[simp] theorem resetEvent_resets (s : State) : (resetEvent s).resets = s.resets + 1 := rfl

end Sys2Proof.Machine
end

