-- ==== Sys2Proof/Laws/Ops.lean ====
section
/-! SUPPORT. What each shared operation can do, said once. -/

namespace Sys2Proof.Machine

/-- The state after a byte is appended (41_sequencer.md R126). -/
def appended (b : Byte) (ordinary : SeqState) (s : State) (h : s.fill.val < 64) : State :=
  { s with
    buf := writeByte s.buf s.fill.val b
    fill := ⟨s.fill.val + 1, by omega⟩
    st := if s.fill.val + 1 = 64 then .cload else ordinary }

theorem appendByte_next {b : Byte} {o : SeqState} {s : State} (h : s.fill.val < 64) :
    appendByte b o s = .next (appended b o s h) := by
  simp [appendByte, h, appended]

theorem appendByte_full {b : Byte} {o : SeqState} {s : State} (h : s.fill.val = 64) :
    appendByte b o s = .fault .bufferIndex := by
  simp [appendByte, h]

/-- Appending a byte answers a next state only where there is a byte to write, and then the state `appended`. -/
theorem appendByte_inv {b : Byte} {o : SeqState} {s t : State} (h : appendByte b o s = .next t) :
    ∃ hf : s.fill.val < 64, t = appended b o s hf := by
  by_cases hf : s.fill.val < 64
  · rw [appendByte_next hf] at h
    exact ⟨hf, (Host.Outcome.next.inj h).symm⟩
  · simp [appendByte, hf] at h

section
variable {b : Byte} {o : SeqState} {s : State} {h : s.fill.val < 64}
@[simp] theorem appended_h : (appended b o s h).h = s.h := rfl
@[simp] theorem appended_w : (appended b o s h).w = s.w := rfl
@[simp] theorem appended_buf : (appended b o s h).buf = writeByte s.buf s.fill.val b := rfl
@[simp] theorem appended_fill : (appended b o s h).fill.val = s.fill.val + 1 := rfl
@[simp] theorem appended_len : (appended b o s h).len = s.len := rfl
@[simp] theorem appended_fin : (appended b o s h).fin = s.fin := rfl
@[simp] theorem appended_padk : (appended b o s h).padk = s.padk := rfl
@[simp] theorem appended_rnd : (appended b o s h).rnd = s.rnd := rfl
@[simp] theorem appended_st : (appended b o s h).st = if s.fill.val + 1 = 64 then .cload else o := rfl
@[simp] theorem appended_cause : (appended b o s h).cause = s.cause := rfl
@[simp] theorem appended_host : (appended b o s h).host = s.host := rfl
@[simp] theorem appended_rsp : (appended b o s h).rsp = s.rsp := rfl
@[simp] theorem appended_resets : (appended b o s h).resets = s.resets := rfl
end

theorem accepted_ready {s : State} {r : Result} (h : s.ready = true) : accepted s r = r := by
  have h' : readyState s.st = true := h
  simp [accepted, h']

theorem accepted_busy {s : State} {r : Result} (h : s.ready = false) : accepted s r = .next s := by
  have h' : readyState s.st = false := h
  simp [accepted, h']

theorem legalIn_legal {c : SeqState} {s : State} {r : Result} (h : s.st = c) : legalIn c s r = r := by
  simp [legalIn, h]

theorem legalIn_other {c : SeqState} {s : State} {r : Result} (h : s.st ≠ c) :
    legalIn c s r = .next (raiseCommand .sequenceError s) := by
  simp [legalIn, h]

theorem ready_iff (s : State) :
    s.ready = true ↔ s.st = .idle ∨ s.st = .absorb ∨ s.st = .done ∨ s.st = .fault := by
  unfold State.ready
  cases s.st <;> simp [readyState]

theorem busy_iff (s : State) : s.busy = true ↔ s.ready = false := by simp [State.busy]

end Sys2Proof.Machine
end

