-- ==== Sys2Proof/Laws/Round.lean ====
section
/-! SUPPORT. The rounds: the phase of a round number, and the one form that the four ROUND micro-operations share. -/

namespace Sys2Proof.Machine

theorem phaseOf_toNat (r : BitVec 6) : (phaseOf r).toNat = r.toNat / 16 := by
  have := r.isLt
  simp only [phaseOf, BitVec.extractLsb'_toNat, Nat.shiftRight_eq_div_pow]
  omega

theorem phaseOf_eq_iff (r : BitVec 6) (p : BitVec 2) : phaseOf r = p ↔ r.toNat / 16 = p.toNat := by
  rw [← phaseOf_toNat, BitVec.toNat_eq]

/-- The mixing function of a phase is that of its rounds (42_round_datapath.md R161 to R164, R167). -/
theorem mixOf_of_phase (r : BitVec 6) :
    mixOf r.toNat = match (phaseOf r).toNat with
      | 0 => mix0
      | 1 => mix1
      | 2 => mix2
      | _ => mix3 := by
  have hr := r.isLt
  rw [phaseOf_toNat]
  unfold mixOf
  by_cases h0 : r.toNat < 16
  · simp [h0, show r.toNat / 16 = 0 by omega]
  · by_cases h1 : r.toNat < 32
    · simp [h0, h1, show r.toNat / 16 = 1 by omega]
    · by_cases h2 : r.toNat < 48
      · simp [h0, h1, h2, show r.toNat / 16 = 2 by omega]
      · simp [h0, h1, h2, show r.toNat / 16 = 3 by omega]

/-- The schedule of a phase is that of its rounds (42_round_datapath.md R157). -/
theorem schedOf_of_phase (r : BitVec 6) :
    schedOf r.toNat = (match (phaseOf r).toNat with
      | 0 => sched0
      | 1 => sched1
      | 2 => sched2
      | _ => sched3) r.toNat := by
  have hr := r.isLt
  rw [phaseOf_toNat]
  unfold schedOf
  by_cases h0 : r.toNat < 16
  · simp [h0, show r.toNat / 16 = 0 by omega, sched0]; omega
  · by_cases h1 : r.toNat < 32
    · simp [h0, h1, show r.toNat / 16 = 1 by omega, sched1]
    · by_cases h2 : r.toNat < 48
      · simp [h0, h1, h2, show r.toNat / 16 = 2 by omega, sched2]
      · simp [h0, h1, h2, show r.toNat / 16 = 3 by omega, sched3]

theorem schedOf_lt (i : Nat) : schedOf i < 16 := by
  unfold schedOf
  split
  · assumption
  · split
    · omega
    · split <;> omega

/-- The state after the round `s.rnd` with message word `m` (42_round_datapath.md R160). -/
def rounded (m : Word) (s : State) : State :=
  { s with
    w := roundWords (mixOf s.rnd.toNat s.w.b s.w.c s.w.d) m (kTable s.rnd) (sTable s.rnd) s.w
    rnd := if s.rnd.toNat < 63 then s.rnd + 1 else s.rnd
    st := if s.rnd.toNat = 63 then .cadd else .round }

section
variable {m : Word} {s : State}
@[simp] theorem rounded_h : (rounded m s).h = s.h := rfl
@[simp] theorem rounded_w : (rounded m s).w =
    roundWords (mixOf s.rnd.toNat s.w.b s.w.c s.w.d) m (kTable s.rnd) (sTable s.rnd) s.w := rfl
@[simp] theorem rounded_buf : (rounded m s).buf = s.buf := rfl
@[simp] theorem rounded_fill : (rounded m s).fill = s.fill := rfl
@[simp] theorem rounded_len : (rounded m s).len = s.len := rfl
@[simp] theorem rounded_fin : (rounded m s).fin = s.fin := rfl
@[simp] theorem rounded_padk : (rounded m s).padk = s.padk := rfl
@[simp] theorem rounded_rnd : (rounded m s).rnd = if s.rnd.toNat < 63 then s.rnd + 1 else s.rnd := rfl
@[simp] theorem rounded_st : (rounded m s).st = if s.rnd.toNat = 63 then .cadd else .round := rfl
@[simp] theorem rounded_cause : (rounded m s).cause = s.cause := rfl
@[simp] theorem rounded_host : (rounded m s).host = s.host := rfl
@[simp] theorem rounded_rsp : (rounded m s).rsp = s.rsp := rfl
@[simp] theorem rounded_resets : (rounded m s).resets = s.resets := rfl
end

/-- What ROUND answers in its own phase: a fault when a byte of the message word has no value, else the next round. -/
theorem roundStep_enabled {p : BitVec 2} {mix : Word → Word → Word → Word} {sched : Nat → Nat} {s : State}
    (hst : s.st = .round) (hp : phaseOf s.rnd = p) (hmix : mixOf s.rnd.toNat = mix)
    (hsched : schedOf s.rnd.toNat = sched s.rnd.toNat) :
    roundStep p mix sched s = match messageWord s.buf (schedOf s.rnd.toNat) with
      | none => .fault .unwrittenByte
      | some m => .next (rounded m s) := by
  cases hm : messageWord s.buf (sched s.rnd.toNat) <;> simp [roundStep, rounded, hst, hp, hmix, hsched, hm]

theorem roundStep_inv {p : BitVec 2} {mix : Word → Word → Word → Word} {sched : Nat → Nat} {s t : State}
    (hmix : phaseOf s.rnd = p → mixOf s.rnd.toNat = mix)
    (hsched : phaseOf s.rnd = p → schedOf s.rnd.toNat = sched s.rnd.toNat)
    (h : roundStep p mix sched s = .next t) :
    s.st = .round ∧ phaseOf s.rnd = p ∧ ∃ m, messageWord s.buf (schedOf s.rnd.toNat) = some m ∧ t = rounded m s := by
  by_cases he : s.st = .round ∧ phaseOf s.rnd = p
  · rw [roundStep_enabled he.1 he.2 (hmix he.2) (hsched he.2)] at h
    cases hm : messageWord s.buf (schedOf s.rnd.toNat) with
    | none => rw [hm] at h; cases h
    | some m => rw [hm] at h; exact ⟨he.1, he.2, m, rfl, (Host.Outcome.next.inj h).symm⟩
  · unfold roundStep at h; rw [if_neg he] at h; cases h

theorem mixOf_p0 {s : State} (h : phaseOf s.rnd = 0) : mixOf s.rnd.toNat = mix0 := by
  rw [mixOf_of_phase, h]; rfl
theorem mixOf_p1 {s : State} (h : phaseOf s.rnd = 1) : mixOf s.rnd.toNat = mix1 := by
  rw [mixOf_of_phase, h]; rfl
theorem mixOf_p2 {s : State} (h : phaseOf s.rnd = 2) : mixOf s.rnd.toNat = mix2 := by
  rw [mixOf_of_phase, h]; rfl
theorem mixOf_p3 {s : State} (h : phaseOf s.rnd = 3) : mixOf s.rnd.toNat = mix3 := by
  rw [mixOf_of_phase, h]; rfl
theorem schedOf_p0 {s : State} (h : phaseOf s.rnd = 0) : schedOf s.rnd.toNat = sched0 s.rnd.toNat := by
  rw [schedOf_of_phase, h]; rfl
theorem schedOf_p1 {s : State} (h : phaseOf s.rnd = 1) : schedOf s.rnd.toNat = sched1 s.rnd.toNat := by
  rw [schedOf_of_phase, h]; rfl
theorem schedOf_p2 {s : State} (h : phaseOf s.rnd = 2) : schedOf s.rnd.toNat = sched2 s.rnd.toNat := by
  rw [schedOf_of_phase, h]; rfl
theorem schedOf_p3 {s : State} (h : phaseOf s.rnd = 3) : schedOf s.rnd.toNat = sched3 s.rnd.toNat := by
  rw [schedOf_of_phase, h]; rfl

end Sys2Proof.Machine
end

