-- ==== Sys2Proof/Laws/Exec.lean ====
section
/-! SUPPORT. What an instruction can do, said once: if `exec` answers a next state, it is one of the cases of `ExecNext`,
and each case says what holds of the state before and what the state after is. -/

namespace Sys2Proof.Machine

/-- The state INIT leaves (41_sequencer.md R122). -/
def initialised (s : State) : State :=
  respondDone { s with
    h := initialHash
    len := 0
    fill := 0
    fin := false
    padk := 0
    rnd := 0
    cause := .none
    st := .absorb }

/-- The fault a command raises in a ready state, if any (60_exceptions.md R202 to R204). -/
def faultOf (i : Instr) (s : State) : Option Cause :=
  match i with
  | .push _ =>
    if s.st ≠ .absorb then some .sequenceError
    else if s.len.toNat = Config.maxLength then some .lengthOverflow
    else none
  | .final => if s.st ≠ .absorb then some .sequenceError else none
  | .rdb k => if maxDigestIndex < k.toNat then some .illegalCommand
    else if s.st ≠ .done then some .sequenceError else none
  | .rdh k => if maxHexIndex < k.toNat then some .illegalCommand
    else if s.st ≠ .done then some .sequenceError else none
  | _ => none

/-- The ways `exec` can answer a next state. -/
inductive ExecNext : Instr → State → State → Prop where
  /-- A command in a busy state waits (30_encoding.md R72). -/
  | waits {i : Instr} {s : State} (hc : i.isCommand = true) (hb : s.ready = false) : ExecNext i s s
  | nop {s : State} (hr : s.ready = true) : ExecNext .nop s (respondDone s)
  | rds {s : State} (hr : s.ready = true) : ExecNext .rds s (respond ⟨false, s.status⟩ s)
  | rdb {k : Byte} {s : State} (hk : k.toNat ≤ maxDigestIndex) (hst : s.st = .done) :
      ExecNext (.rdb k) s (respond ⟨false, (digestByte s.h k.toNat).setWidth 16⟩ s)
  | rdh {k : Byte} {s : State} (hk : k.toNat ≤ maxHexIndex) (hst : s.st = .done) :
      ExecNext (.rdh k) s (respond ⟨false, (hexChar s.h k.toNat).setWidth 16⟩ s)
  /-- A command of a ready state that faults: PUSH, FINAL, RDB or RDH. -/
  | raises {i : Instr} {s : State} {c : Cause} (hr : s.ready = true) (hi : i ≠ .nop ∧ i ≠ .rds ∧ i ≠ .init)
      (hcmd : i.isCommand = true) (hc : c ≠ .none) (hf : faultOf i s = some c) : ExecNext i s (raiseCommand c s)
  | init {s : State} (hr : s.ready = true) : ExecNext .init s (initialised s)
  | push {b : Byte} {s : State} (hst : s.st = .absorb) (hl : s.len.toNat ≠ Config.maxLength) (hf : s.fill.val < 64) :
      ExecNext (.push b) s (appended b .absorb (respondDone { s with len := s.len + 1 }) hf)
  | final {s : State} (hst : s.st = .absorb) : ExecNext .final s (respondDone { s with fin := true, st := .pad80 })
  | pad80 {s : State} (hst : s.st = .pad80) (hf : s.fill.val < 64) : ExecNext .pad80 s (appended 0x80 .padzero s hf)
  | padzeroEnd {s : State} (hst : s.st = .padzero) (hf : s.fill.val = 56) :
      ExecNext .padzero s { s with st := .padlen }
  | padzero {s : State} (hst : s.st = .padzero) (hn : s.fill.val ≠ 56) (hf : s.fill.val < 64) :
      ExecNext .padzero s (appended 0x00 .padzero s hf)
  | padlen {s : State} (hst : s.st = .padlen) (hk : s.padk.val < 8) (hf : s.fill.val < 64) :
      ExecNext .padlen s (appended (lengthByte s.len.toNat s.padk.val) .padlen
        { s with padk := ⟨s.padk.val + 1, by omega⟩ } hf)
  | cload {s : State} (hst : s.st = .cload) (hf : s.fill.val = 64) :
      ExecNext .cload s { s with w := s.h, rnd := 0, st := .round }
  | cloadAssert {s : State} (hst : s.st = .cload) (hf : s.fill.val ≠ 64) :
      ExecNext .cload s (raise .alignAssert s)
  | round {i : Instr} {s : State} {m : Word} (hst : s.st = .round) (hi : i = roundOfPhase (phaseOf s.rnd))
      (hm : messageWord s.buf (schedOf s.rnd.toNat) = some m) : ExecNext i s (rounded m s)
  | cadd {s : State} (hst : s.st = .cadd) :
      ExecNext .cadd s { s with h := s.h.add s.w, fill := 0, st := afterBlock s }

theorem accepted_inv {s t : State} {r : Result} (h : accepted s r = .next t) :
    (s.ready = false ∧ t = s) ∨ (s.ready = true ∧ r = .next t) := by
  cases hr : s.ready with
  | true => rw [accepted_ready hr] at h; exact .inr ⟨rfl, h⟩
  | false => rw [accepted_busy hr] at h; exact .inl ⟨rfl, (Host.Outcome.next.inj h).symm⟩

theorem legalIn_inv {c : SeqState} {s t : State} {r : Result} (h : legalIn c s r = .next t) :
    (s.st ≠ c ∧ t = raiseCommand .sequenceError s) ∨ (s.st = c ∧ r = .next t) := by
  by_cases hs : s.st = c
  · rw [legalIn_legal hs] at h; exact .inr ⟨hs, h⟩
  · rw [legalIn_other hs] at h; exact .inl ⟨hs, (Host.Outcome.next.inj h).symm⟩

theorem execNop_next {s t : State} (h : execNop s = .next t) : ExecNext .nop s t := by
  obtain ⟨hb, rfl⟩ | ⟨hr, h⟩ := accepted_inv h
  · exact .waits rfl hb
  · cases h; exact .nop hr

theorem execInit_next {s t : State} (h : execInit s = .next t) : ExecNext .init s t := by
  obtain ⟨hb, rfl⟩ | ⟨hr, h⟩ := accepted_inv h
  · exact .waits rfl hb
  · cases h; exact .init hr

theorem execPush_next {b : Byte} {s t : State} (h : execPush b s = .next t) : ExecNext (.push b) s t := by
  obtain ⟨hb, rfl⟩ | ⟨hr, h⟩ := accepted_inv h
  · exact .waits rfl hb
  · obtain ⟨hst, rfl⟩ | ⟨hst, h⟩ := legalIn_inv h
    · exact .raises hr ⟨nofun, nofun, nofun⟩ rfl nofun (by simp [faultOf, hst])
    · by_cases hl : s.len.toNat = Config.maxLength
      · rw [if_pos hl] at h; cases h
        exact .raises hr ⟨nofun, nofun, nofun⟩ rfl nofun (by simp [faultOf, hst, hl])
      · rw [if_neg hl] at h
        obtain ⟨hf, rfl⟩ := appendByte_inv h
        exact .push hst hl hf

theorem execFinal_next {s t : State} (h : execFinal s = .next t) : ExecNext .final s t := by
  obtain ⟨hb, rfl⟩ | ⟨hr, h⟩ := accepted_inv h
  · exact .waits rfl hb
  · obtain ⟨hst, rfl⟩ | ⟨hst, h⟩ := legalIn_inv h
    · exact .raises hr ⟨nofun, nofun, nofun⟩ rfl nofun (by simp [faultOf, hst])
    · cases h; exact .final hst

theorem execRdb_next {k : Byte} {s t : State} (h : execRdb k s = .next t) : ExecNext (.rdb k) s t := by
  obtain ⟨hb, rfl⟩ | ⟨hr, h⟩ := accepted_inv h
  · exact .waits rfl hb
  · by_cases hk : k.toNat ≤ maxDigestIndex
    · rw [if_pos hk] at h
      obtain ⟨hst, rfl⟩ | ⟨hst, h⟩ := legalIn_inv h
      · exact .raises hr ⟨nofun, nofun, nofun⟩ rfl nofun (by simp [faultOf, hst, Nat.not_lt.2 hk])
      · cases h; exact .rdb hk hst
    · rw [if_neg hk] at h; cases h
      exact .raises hr ⟨nofun, nofun, nofun⟩ rfl nofun (by simp [faultOf, Nat.lt_of_not_le hk])

theorem execRdh_next {k : Byte} {s t : State} (h : execRdh k s = .next t) : ExecNext (.rdh k) s t := by
  obtain ⟨hb, rfl⟩ | ⟨hr, h⟩ := accepted_inv h
  · exact .waits rfl hb
  · by_cases hk : k.toNat ≤ maxHexIndex
    · rw [if_pos hk] at h
      obtain ⟨hst, rfl⟩ | ⟨hst, h⟩ := legalIn_inv h
      · exact .raises hr ⟨nofun, nofun, nofun⟩ rfl nofun (by simp [faultOf, hst, Nat.not_lt.2 hk])
      · cases h; exact .rdh hk hst
    · rw [if_neg hk] at h; cases h
      exact .raises hr ⟨nofun, nofun, nofun⟩ rfl nofun (by simp [faultOf, Nat.lt_of_not_le hk])

theorem execRds_next {s t : State} (h : execRds s = .next t) : ExecNext .rds s t := by
  obtain ⟨hb, rfl⟩ | ⟨hr, h⟩ := accepted_inv h
  · exact .waits rfl hb
  · cases h; exact .rds hr

theorem execPad80_next {s t : State} (h : execPad80 s = .next t) : ExecNext .pad80 s t := by
  by_cases hst : s.st = .pad80
  · rw [execPad80, if_pos hst] at h
    obtain ⟨hf, rfl⟩ := appendByte_inv h
    exact .pad80 hst hf
  · rw [execPad80, if_neg hst] at h; cases h

theorem execPadzero_next {s t : State} (h : execPadzero s = .next t) : ExecNext .padzero s t := by
  by_cases hst : s.st = .padzero
  · rw [execPadzero, if_pos hst] at h
    by_cases hf : s.fill.val = 56
    · rw [if_pos hf] at h; cases h; exact .padzeroEnd hst hf
    · rw [if_neg hf] at h
      obtain ⟨hf', rfl⟩ := appendByte_inv h
      exact .padzero hst hf hf'
  · rw [execPadzero, if_neg hst] at h; cases h

theorem execPadlen_next {s t : State} (h : execPadlen s = .next t) : ExecNext .padlen s t := by
  by_cases hst : s.st = .padlen ∧ s.padk.val < 8
  · rw [execPadlen, dif_pos hst] at h
    obtain ⟨hf, rfl⟩ := appendByte_inv h
    exact .padlen hst.1 hst.2 hf
  · rw [execPadlen, dif_neg hst] at h; cases h

theorem execCload_next {s t : State} (h : execCload s = .next t) : ExecNext .cload s t := by
  by_cases hst : s.st = .cload
  · rw [execCload, if_pos hst] at h
    by_cases hf : s.fill.val = 64
    · rw [if_pos hf] at h; cases h; exact .cload hst hf
    · rw [if_neg hf] at h; cases h; exact .cloadAssert hst hf
  · rw [execCload, if_neg hst] at h; cases h

theorem execRoundP0_next {s t : State} (h : execRoundP0 s = .next t) : ExecNext .roundP0 s t := by
  obtain ⟨hst, hp, m, hm, rfl⟩ := roundStep_inv mixOf_p0 schedOf_p0 h
  exact .round hst (by rw [hp]; rfl) hm

theorem execRoundP1_next {s t : State} (h : execRoundP1 s = .next t) : ExecNext .roundP1 s t := by
  obtain ⟨hst, hp, m, hm, rfl⟩ := roundStep_inv mixOf_p1 schedOf_p1 h
  exact .round hst (by rw [hp]; rfl) hm

theorem execRoundP2_next {s t : State} (h : execRoundP2 s = .next t) : ExecNext .roundP2 s t := by
  obtain ⟨hst, hp, m, hm, rfl⟩ := roundStep_inv mixOf_p2 schedOf_p2 h
  exact .round hst (by rw [hp]; rfl) hm

theorem execRoundP3_next {s t : State} (h : execRoundP3 s = .next t) : ExecNext .roundP3 s t := by
  obtain ⟨hst, hp, m, hm, rfl⟩ := roundStep_inv mixOf_p3 schedOf_p3 h
  exact .round hst (by rw [hp]; rfl) hm

theorem execCadd_next {s t : State} (h : execCadd s = .next t) : ExecNext .cadd s t := by
  by_cases hst : s.st = .cadd
  · rw [execCadd, if_pos hst] at h; cases h; exact .cadd hst
  · rw [execCadd, if_neg hst] at h; cases h

/-- The inversion lemma of `exec`. -/
theorem exec_next {i : Instr} {s t : State} (h : exec i s = .next t) : ExecNext i s t := by
  cases i with
  | nop => exact execNop_next h
  | init => exact execInit_next h
  | push b => exact execPush_next h
  | final => exact execFinal_next h
  | rdb k => exact execRdb_next h
  | rdh k => exact execRdh_next h
  | rds => exact execRds_next h
  | pad80 => exact execPad80_next h
  | padzero => exact execPadzero_next h
  | padlen => exact execPadlen_next h
  | cload => exact execCload_next h
  | roundP0 => exact execRoundP0_next h
  | roundP1 => exact execRoundP1_next h
  | roundP2 => exact execRoundP2_next h
  | roundP3 => exact execRoundP3_next h
  | cadd => exact execCadd_next h

/-- What the ROUND of the present phase answers, for all four variants at once. -/
theorem exec_round {s : State} (hst : s.st = .round) :
    exec (roundOfPhase (phaseOf s.rnd)) s = match messageWord s.buf (schedOf s.rnd.toNat) with
      | none => .fault .unwrittenByte
      | some m => .next (rounded m s) := by
  have hp : (phaseOf s.rnd).toNat < 4 := (phaseOf s.rnd).isLt
  obtain h | h | h | h : phaseOf s.rnd = 0 ∨ phaseOf s.rnd = 1 ∨ phaseOf s.rnd = 2 ∨ phaseOf s.rnd = 3 := by
    rw [BitVec.toNat_eq, BitVec.toNat_eq, BitVec.toNat_eq, BitVec.toNat_eq]
    simp
    omega
  · rw [h]; exact roundStep_enabled hst h (mixOf_p0 h) (schedOf_p0 h)
  · rw [h]; exact roundStep_enabled hst h (mixOf_p1 h) (schedOf_p1 h)
  · rw [h]; exact roundStep_enabled hst h (mixOf_p2 h) (schedOf_p2 h)
  · rw [h]; exact roundStep_enabled hst h (mixOf_p3 h) (schedOf_p3 h)

end Sys2Proof.Machine
end

