-- ==== Sys2Proof/Laws/PerInstr.lean ====
section
/-! SUPPORT. Statements for all instructions, one lemma per constructor. `Formats`: the seven commands are encoded in
format `C` and the nine micro-operations in format `U` (30_encoding.md R74, R84). -/

namespace Sys2Proof.Laws.Formats

/-- An instruction has a command word exactly when it is a command. -/
def Statement (i : Instr) : Prop := (∃ w, encode i = .command w) ↔ i.isCommand = true

theorem nop : Statement .nop := ⟨fun _ => rfl, fun _ => ⟨_, rfl⟩⟩
theorem init : Statement .init := ⟨fun _ => rfl, fun _ => ⟨_, rfl⟩⟩
theorem push (b : Byte) : Statement (.push b) := ⟨fun _ => rfl, fun _ => ⟨_, rfl⟩⟩
theorem final : Statement .final := ⟨fun _ => rfl, fun _ => ⟨_, rfl⟩⟩
theorem rdb (i : Byte) : Statement (.rdb i) := ⟨fun _ => rfl, fun _ => ⟨_, rfl⟩⟩
theorem rdh (j : Byte) : Statement (.rdh j) := ⟨fun _ => rfl, fun _ => ⟨_, rfl⟩⟩
theorem rds : Statement .rds := ⟨fun _ => rfl, fun _ => ⟨_, rfl⟩⟩
theorem pad80 : Statement .pad80 := ⟨nofun, nofun⟩
theorem padzero : Statement .padzero := ⟨nofun, nofun⟩
theorem padlen : Statement .padlen := ⟨nofun, nofun⟩
theorem cload : Statement .cload := ⟨nofun, nofun⟩
theorem roundP0 : Statement .roundP0 := ⟨nofun, nofun⟩
theorem roundP1 : Statement .roundP1 := ⟨nofun, nofun⟩
theorem roundP2 : Statement .roundP2 := ⟨nofun, nofun⟩
theorem roundP3 : Statement .roundP3 := ⟨nofun, nofun⟩
theorem cadd : Statement .cadd := ⟨nofun, nofun⟩

end Sys2Proof.Laws.Formats
end

