-- ==== Sys2Proof/Laws/Step.lean ====
section
/-! SUPPORT. What a step can do, said once: if `step` answers a next state, it is one of the cases of `StepNext`. -/

namespace Sys2Proof.Machine

/-- The command word at the head of the host's script. -/
def presented : List HostEvent → Option CommandWord
  | .hold w :: _ => some w
  | .offer w :: _ => some w
  | _ => none

/-- The ways `step` can answer a next state. -/
inductive StepNext (s : State) : State → Prop where
  /-- The reset event (70_reset_and_hazards.md R230). -/
  | reset (hh : resetAsserted s.host = true) : StepNext s (resetEvent { s with host := s.host.tail })
  /-- The engine rests (30_encoding.md R72). -/
  | rests (hr : s.ready = true) (hh : resetAsserted s.host = false) (hp : presented s.host = none) :
      StepNext s { s with host := s.host.tail }
  /-- An illegal word is accepted (30_encoding.md R80). -/
  | illegal {w : CommandWord} {e : DecodeError} (hr : s.ready = true) (hh : resetAsserted s.host = false)
      (hp : presented s.host = some w) (hd : decodeCommand w = .error e) :
      StepNext s (raiseCommand .illegalCommand { s with host := s.host.tail })
  /-- A command is accepted (30_encoding.md R72). -/
  | command {w : CommandWord} {i : Instr} {t : State} (hr : s.ready = true) (hh : resetAsserted s.host = false)
      (hp : presented s.host = some w) (hd : decodeCommand w = .ok i)
      (ht : ExecNext i { s with host := s.host.tail } t) : StepNext s t
  /-- A micro-operation runs (30_encoding.md R84). -/
  | micro {t : State} (hb : s.ready = false) (hh : resetAsserted s.host = false)
      (ht : ExecNext (enabledMicro s) { s with host := waiting s.host } t) : StepNext s t

theorem step_reset {s : State} (hh : resetAsserted s.host = true) :
    step s = .next (resetEvent { s with host := s.host.tail }) := by
  simp [step, engineStep, hh]

theorem step_ready {s : State} (hh : resetAsserted s.host = false) (hr : s.ready = true) : step s = hostTurn s := by
  simp [step, engineStep, hh, hr]

/-- In a busy state the selected micro-operation is the one the state enables. -/
theorem microOperation_busy {s : State} (hb : s.ready = false) : microOperation s = exec (enabledMicro s) s := by
  simp [microOperation, decodeMicro_controlWord hb]

theorem step_busy {s : State} (hh : resetAsserted s.host = false) (hb : s.ready = false) :
    step s = exec (enabledMicro s) { s with host := waiting s.host } := by
  have hm := microOperation_busy (s := { s with host := waiting s.host }) hb
  simp only [step, engineStep, hh, hb, sequencerTurn, Bool.false_eq_true, if_false]
  exact hm

theorem hostTurn_presented {s : State} {w : CommandWord} (hp : presented s.host = some w) :
    hostTurn s = acceptWord w { s with host := s.host.tail } := by
  unfold hostTurn
  cases hh : s.host with
  | nil => rw [hh] at hp; cases hp
  | cons e rest =>
    rw [hh] at hp
    cases e <;> simp_all [presented]

theorem hostTurn_rests {s : State} (hh : resetAsserted s.host = false) (hp : presented s.host = none) :
    hostTurn s = .next { s with host := s.host.tail } := by
  unfold hostTurn
  cases hl : s.host with
  | nil => rw [← hl]; cases s; simp_all
  | cons e rest =>
    rw [hl] at hp hh
    cases e <;> simp_all [presented, resetAsserted]

theorem acceptWord_ok {w : CommandWord} {i : Instr} {s : State} (hd : decodeCommand w = .ok i) :
    acceptWord w s = exec i s := by
  simp [acceptWord, hd]

theorem acceptWord_error {w : CommandWord} {e : DecodeError} {s : State} (hr : s.ready = true)
    (hd : decodeCommand w = .error e) : acceptWord w s = .next (raiseCommand .illegalCommand s) := by
  simp [acceptWord, hd, illegalCommand, accepted_ready hr]

/-- The inversion lemma of `step`. -/
theorem step_next {s t : State} (h : step s = .next t) : StepNext s t := by
  cases hh : resetAsserted s.host with
  | true => rw [step_reset hh] at h; cases h; exact .reset hh
  | false =>
    cases hr : s.ready with
    | false => rw [step_busy hh hr] at h; exact .micro hr hh (exec_next h)
    | true =>
      rw [step_ready hh hr] at h
      cases hp : presented s.host with
      | none => rw [hostTurn_rests hh hp] at h; cases h; exact .rests hr hh hp
      | some w =>
        rw [hostTurn_presented hp] at h
        cases hd : decodeCommand w with
        | ok i => rw [acceptWord_ok hd] at h; exact .command hr hh hp hd (exec_next h)
        | error e => rw [acceptWord_error (s := { s with host := s.host.tail }) hr hd] at h; cases h; exact .illegal hr hh hp hd

/-- A command word decodes to a command, never to a micro-operation. -/
theorem decodeCommand_isCommand {w : CommandWord} {i : Instr} (h : decodeCommand w = .ok i) : i.isCommand = true := by
  unfold decodeCommand withoutOperand withIndex at h
  split at h
  · cases h
  · split at h <;> first
      | (cases h <;> rfl)
      | (split at h <;> cases h; rfl)

/-- The meaning of a command in a busy state changes nothing (30_encoding.md R72). -/
theorem exec_busy {i : Instr} {s : State} (hc : i.isCommand = true) (hb : s.ready = false) : exec i s = .next s := by
  cases i <;> first
    | exact accepted_busy hb
    | cases hc

/-- In a busy state no word is accepted (30_encoding.md R72). -/
theorem acceptWord_busy {w : CommandWord} {s : State} (hb : s.ready = false) : acceptWord w s = .next s := by
  unfold acceptWord
  cases hd : decodeCommand w with
  | ok i => exact exec_busy (decodeCommand_isCommand hd) hb
  | error e => exact accepted_busy hb

end Sys2Proof.Machine
end

