-- ==== Sys2Proof/Laws/Run.lean ====
section
/-! SUPPORT. Runs of several steps, what of a state the invariant does not look at, and the bytes of a growing message:
small lemmas that claims about whole runs cite. -/

namespace Sys2Proof.Machine

/-! ### `runSteps` -/

theorem runSteps_add (a b : Nat) {s t : State} (h : runSteps a s = .next t) : runSteps (a + b) s = runSteps b t := by
  induction a generalizing s with
  | zero => simp [runSteps] at h; subst h; simp
  | succ a ih =>
    rw [show a + 1 + b = (a + b) + 1 by omega]
    simp only [runSteps] at h ⊢
    cases hs : step s with
    | next u => rw [hs] at h; exact ih h
    | fault f => rw [hs] at h; cases h
    | refused r => rw [hs] at h; cases h

theorem runSteps_one {s t : State} (h : step s = .next t) : runSteps 1 s = .next t := by
  simp [runSteps, h]

theorem runSteps_succ {n : Nat} {s t u : State} (h : runSteps n s = .next t) (h2 : step t = .next u) :
    runSteps (n + 1) s = .next u := by
  rw [runSteps_add n 1 h]; exact runSteps_one h2

/-- A busy step with nothing of the host's script running out. -/
theorem step_busy_waiting {s : State} (hh : resetAsserted s.host = false) (hw : waiting s.host = s.host)
    (hb : s.ready = false) : step s = exec (enabledMicro s) s := by
  rw [step_busy hh hb, hw]

/-! ### The big step -/

theorem runToReady_ready (n : Nat) {s : State} (h : s.ready = true) : runToReady n s = .next s := by
  cases n <;> simp [runToReady, h]

/-- From a ready state the big step is the word's step and the micro-operations after it. -/
theorem bigStep_ready {w : CommandWord} {s t : State} (h : s.ready = true) (ht : acceptWord w s = .next t) :
    bigStep w s = runToReady 205 t := by
  simp [bigStep, runToReady_ready 205 h, ht]

theorem runToReady_busy (n : Nat) {s t : State} (h : s.ready = false) (ht : exec (enabledMicro s) s = .next t) :
    runToReady (n + 1) s = runToReady n t := by
  simp [runToReady, h, microOperation_busy h, ht]

/-! ### The host's script -/

/-- `presented` is `Presents`. -/
theorem presented_iff {s : State} {w : CommandWord} : presented s.host = some w ↔ Presents s w := by
  unfold Presents
  cases hh : s.host with
  | nil => simp [presented]
  | cons e r => cases e <;> simp [presented]

/-- No instruction touches the script. -/
theorem exec_host {i : Instr} {s t : State} (hx : ExecNext i s t) : t.host = s.host := by
  cases hx <;> rfl

/-- A micro-operation gives no response (60_exceptions.md R206). -/
theorem exec_micro_rsp {i : Instr} {s t : State} (hc : i.isCommand = false) (hx : ExecNext i s t) : t.rsp = s.rsp := by
  cases hx <;> first | rfl | simp_all [Instr.isCommand]

/-- The micro-operation of a state does not depend on the script. -/
theorem enabledMicro_host (s : State) (l : List HostEvent) : enabledMicro { s with host := l } = enabledMicro s := rfl

/-! ### The canonical form of the buffer -/

theorem reset_buffer_wf : Memory.wf State.reset.buf = true := rfl

/-- Giving the missing bytes a value keeps the canonical form. -/
theorem wf_fillMissing (n : Nat) (m : Memory) (hn : n ≤ 64) (hm : Memory.wf m = true) :
    Memory.wf (fillMissing n m) = true := by
  induction n with
  | zero => exact hm
  | succ n ih =>
    simp only [fillMissing]
    split
    · exact ih (by omega)
    · exact wf_writeByte _ _ _ (by omega) (ih (by omega))

/-! ### The invariant -/

/-- The invariant does not look at the script. -/
theorem inv_host {s : State} (h : s.Inv) (l : List HostEvent) : State.Inv { s with host := l } :=
  { canonical := h.canonical, written := h.written, full := h.full, absorb := h.absorb, idle := h.idle,
    counted := h.counted, paddingFin := h.paddingFin, pad80 := h.pad80, padzero := h.padzero, padlen := h.padlen,
    block := h.block, whole := h.whole, done := h.done, fault := h.fault }

/-- The invariant does not look at the responses. -/
theorem inv_respond {s : State} (h : s.Inv) (r : Response) : State.Inv (respond r s) :=
  { canonical := h.canonical, written := h.written, full := h.full, absorb := h.absorb, idle := h.idle,
    counted := h.counted, paddingFin := h.paddingFin, pad80 := h.pad80, padzero := h.padzero, padlen := h.padlen,
    block := h.block, whole := h.whole, done := h.done, fault := h.fault }

/-- After a byte is appended, every byte that `FILL` counts has a value. -/
theorem written_append {s : State} (h : s.Inv) (b : Byte) (i : Nat) (hi : i < s.fill.val + 1) :
    (readByte (writeByte s.buf s.fill.val b) i).isSome = true := by
  rw [readByte_writeByte]
  split
  · rfl
  · exact h.written i (by omega)

/-- A full block has every message word. -/
theorem messageWord_isSome {buf : Memory} (h : ∀ i, i < 64 → (readByte buf i).isSome = true) {j : Nat} (hj : j < 16) :
    ∃ m, messageWord buf j = some m := by
  obtain ⟨b0, h0⟩ := Option.isSome_iff_exists.1 (h (4 * j) (by omega))
  obtain ⟨b1, h1⟩ := Option.isSome_iff_exists.1 (h (4 * j + 1) (by omega))
  obtain ⟨b2, h2⟩ := Option.isSome_iff_exists.1 (h (4 * j + 2) (by omega))
  obtain ⟨b3, h3⟩ := Option.isSome_iff_exists.1 (h (4 * j + 3) (by omega))
  exact ⟨_, messageWord_some h0 h1 h2 h3⟩

/-- The message words of a buffer that holds a block are the block's. -/
theorem messageWord_of_holds {buf : Memory} {block : List Byte} (h : HoldsBlock buf block) {j : Nat} (hj : j < 16) :
    messageWord buf j = some (blockWord block j) := by
  have get : ∀ i, i < 64 → readByte buf i = some (block.getD i 0) := by
    intro i hi
    rw [h.2 i hi, List.getD_eq_getElem?_getD, List.getElem?_eq_getElem (by rw [h.1]; exact hi)]
    rfl
  exact messageWord_some (get _ (by omega)) (get _ (by omega)) (get _ (by omega)) (get _ (by omega))

/-! ### The length field -/

/-- For a message that the spec pads, the length field is that of 40_padding.md R103. -/
theorem lenField_short {len : Nat} (h : len ≤ Config.maxLength) : lenField len = (List.range 8).map (lengthByte len) := by
  have e : lenFieldByte len = lengthByte len := by funext k; simp [lenFieldByte, h]
  rw [lenField, e]

@[simp] theorem length_lenField (len : Nat) : (lenField len).length = 8 := by simp [lenField]

/-! ### Blocks of a growing message -/

theorem blockAt_append {p q : List Byte} {k : Nat} (h : 64 * (k + 1) ≤ p.length) :
    blockAt (p ++ q) k = blockAt p k := by
  unfold blockAt
  rw [List.drop_append_of_le_length (by omega), List.take_append_of_le_length (by rw [List.length_drop]; omega)]

/-- Later bytes do not change the hash state of the whole blocks before them. -/
theorem compressBlocks_append {p q : List Byte} {n : Nat} (h : 64 * n ≤ p.length) :
    compressBlocks (p ++ q) n = compressBlocks p n := by
  induction n with
  | zero => rfl
  | succ n ih => rw [compressBlocks, compressBlocks, ih (by omega), blockAt_append h]

end Sys2Proof.Machine
end

