-- ==== Sys2Proof/Tests/Slice0.lean ====
section
/-! SUPPORT. Tests of the model on words and vectors of the spec (each names its source), and for every statement with
hypotheses a witness that meets them. The expected values are written out from spec/95_test_vectors.md, from the examples
in the rules, or by hand from the encoding tables; none is the model's own answer. -/

namespace Sys2Proof.Tests

open Sys2Proof Sys2Proof.Machine

/-! ### Small states -/

/-- An engine in IDLE whose data registers hold known words. -/
def base : State := { State.reset with
  h := ⟨0xD98C1DD4, 0x04B2008F, 0x980980E9, 0x7E42F8EC⟩
  w := ⟨0x7246FAD3, 0x14E45506, 0xFF4EA3EB, 0x6E10A476⟩ }

/-- `base` in another sequencer state. -/
def inState (st : SeqState) : State := { base with st := st }

/-- `n` zero bytes from index 0. -/
def zeros (n : Nat) : Memory := (List.range n).map (fun i => (i, 0))

/-- In ABSORB with no message byte yet. -/
def absorbing : State := inState .absorb

/-- In ABSORB one byte short of a block, after `len` bytes. -/
def nearlyFull (len : BitVec 61) : State := { absorbing with buf := zeros 63, fill := 63, len := len }

/-- In DONE after a completed FINAL; the hash state is that of the empty message (V80). -/
def finished : State := { base with st := .done, fin := true, padk := 8, rnd := 63 }

/-- In FAULT after a PUSH in IDLE (V90). -/
def faulted : State := { base with st := .fault, cause := .sequenceError }

/-- A busy state of FINAL. -/
def padState (st : SeqState) (fill : Fin 65) (padk : Fin 9) (len : BitVec 61) : State :=
  { base with st := st, fin := true, fill := fill, padk := padk, len := len, buf := zeros fill.val }

/-- A full block whose word `M[0]` is `0x00000080` and whose other words are 0: the empty message's block (V20). -/
def emptyBlock : Memory := (0, 0x80) :: (List.range 63).map (fun i => (i + 1, 0))

/-- The engine before round `rnd` of the empty message's block. -/
def roundState (rnd : BitVec 6) (w : Quad) : State :=
  { base with st := .round, rnd := rnd, w := w, fill := 64, fin := true, padk := 8, buf := emptyBlock }

/-- `s` with the words `ws` held by the host, one after another. -/
def holding (ws : List CommandWord) (s : State) : State := { s with host := ws.map .hold }

/-- What a function of the next state gives; `none` at a stop. -/
def seen {α : Type} (f : State → α) : Result → Option α
  | .next t => some (f t)
  | .fault _ => none
  | .refused _ => none

/-- A next state with a property, from what is seen of it. -/
theorem next_with {p : State → Prop} [DecidablePred p] {r : Result} (h : seen (fun t => decide (p t)) r = some true) :
    ∃ t, r = .next t ∧ p t := by
  cases r with
  | next t => exact ⟨t, rfl, by simpa [seen] using h⟩
  | fault f => cases h
  | refused f => cases h

/-- A next state, from what is seen of it. -/
theorem next_of {r : Result} (h : seen (fun _ => ()) r = some ()) : ∃ t, r = .next t := by
  cases r with
  | next t => exact ⟨t, rfl⟩
  | fault f => cases h
  | refused f => cases h

/-- The last response. -/
def lastRsp (s : State) : Option Response := s.rsp.getLast?

/-! ### Well-formed instructions (30_encoding.md R75) -/

theorem test_wf_rdb_last : (Instr.rdb 15).wf = true := by decide
theorem test_wf_rdb_past_the_digest : (Instr.rdb 16).wf = false := by decide
theorem test_wf_rdh_last : (Instr.rdh 31).wf = true := by decide
theorem test_wf_rdh_past_the_string : (Instr.rdh 32).wf = false := by decide
theorem test_wf_push_every_byte : (Instr.push 0xFF).wf = true := by decide

/-! ### Decoding: every constructor by a word written out field by field (30_encoding.md R71, R74, R84) -/

-- OP = 0000, RSV = 0000, IMM = 00000000
theorem test_decode_nop : decodeCommand 0b0000_0000_00000000 = .ok .nop := by decide
-- OP = 0001
theorem test_decode_init : decodeCommand 0b0001_0000_00000000 = .ok .init := by decide
-- OP = 0010, IMM = 01100001, the letter a
theorem test_decode_push : decodeCommand 0b0010_0000_01100001 = .ok (.push 0x61) := by decide
-- OP = 0011
theorem test_decode_final : decodeCommand 0b0011_0000_00000000 = .ok .final := by decide
-- OP = 0100, IMM = 15
theorem test_decode_rdb : decodeCommand 0b0100_0000_00001111 = .ok (.rdb 15) := by decide
-- OP = 0101, IMM = 31
theorem test_decode_rdh : decodeCommand 0b0101_0000_00011111 = .ok (.rdh 31) := by decide
-- OP = 0110
theorem test_decode_rds : decodeCommand 0b0110_0000_00000000 = .ok .rds := by decide
-- ST = 0010, RND = 111111 (V41)
theorem test_decode_pad80 : decodeMicro 0b0010_111111 = .ok .pad80 := by decide
-- ST = 0011
theorem test_decode_padzero : decodeMicro 0b0011_000000 = .ok .padzero := by decide
-- ST = 0100
theorem test_decode_padlen : decodeMicro 0b0100_111111 = .ok .padlen := by decide
-- ST = 0101
theorem test_decode_cload : decodeMicro 0b0101_111111 = .ok .cload := by decide
-- ST = 0110, RND = 15
theorem test_decode_roundP0 : decodeMicro 0b0110_001111 = .ok .roundP0 := by decide
-- ST = 0110, RND = 16
theorem test_decode_roundP1 : decodeMicro 0b0110_010000 = .ok .roundP1 := by decide
-- ST = 0110, RND = 47
theorem test_decode_roundP2 : decodeMicro 0b0110_101111 = .ok .roundP2 := by decide
-- ST = 0110, RND = 48
theorem test_decode_roundP3 : decodeMicro 0b0110_110000 = .ok .roundP3 := by decide
-- ST = 0111, RND = 63
theorem test_decode_cadd : decodeMicro 0b0111_111111 = .ok .cadd := by decide
-- V40, the illegal words
theorem test_decode_illegal :
    [0x0001, 0x0100, 0x1001, 0x1F00, 0x2161, 0x2F00, 0x3001, 0x3080, 0x4010, 0x40FF, 0x4100, 0x5020, 0x5120, 0x6001,
      0x6800, 0x7000, 0x8000, 0xF000, 0xFFFF].all (fun w => (acceptedInstr (decodeCommand w)).isNone) = true := by decide
-- V41: ST = 1 and ST = 8 enable nothing; ST = 10 is reserved (R84)
theorem test_decode_no_micro :
    decodeMicro 0x07F = .error .readyState ∧ decodeMicro 0x200 = .error .readyState ∧
      decodeMicro 0x280 = .error .reservedState := by decide

/-! ### The encoder, against the same words -/

theorem test_encode_push : encode (.push 0x80) = .command 0x2080 := by decide
theorem test_encode_roundP3 : encode .roundP3 = .micro 0x1B0 := by decide
-- opcode_table.json: ROUND.P3 has 10 bits, match 0x1B0; PUSH has 16 bits, match 0x2000
theorem test_table_words :
    decodeTableWord 10 0x1B0 = some .roundP3 ∧ decodeTableWord 16 0x2000 = some (.push 0) := by decide
theorem test_withFetchWord_runs_push :
    seen lastRsp (step (absorbing.withFetchWord 16 0x2061)) = some (some ⟨false, 0⟩) := by decide
theorem test_withFetchWord_runs_padzero :
    seen State.st (step (base.withFetchWord 10 0x0C0)) = some .padzero := by decide

/-! ### Status (V42) -/

theorem test_status_after_three_bytes : ({ absorbing with fill := 3 } : State).status = 0x0301 := by decide
theorem test_status_overflow :
    ({ nearlyFull 0 with st := .fault, cause := .lengthOverflow } : State).status = 0x3F19 := by decide

/-! ### Commands (V56, V82, V90) -/

theorem test_nop_in_fault :
    seen (fun t => (lastRsp t, t.status)) (exec .nop faulted) = some (some ⟨false, 0⟩, 0x0039) := by decide
theorem test_init_leaves_fault :
    seen (fun t => (t.h.a, t.h.d, t.status)) (exec .init faulted) = some (0x67452301, 0x10325476, 0x0001) := by decide
theorem test_init_busy_waits : seen State.st (exec .init (inState .round)) = some .round := by decide
-- R123's example
theorem test_push_first_byte :
    seen (fun t => (readByte t.buf 0, t.len, t.status)) (exec (.push 0x61) absorbing) = some (some 0x61, 1, 0x0101) := by
  decide
-- V56, the second PUSH
theorem test_push_overflow :
    seen (fun t => (lastRsp t, t.status, readByte t.buf 63)) (exec (.push 0x42) (nearlyFull 0x1FFFFFFFFFFFFFFF)) =
      some (some ⟨true, 0⟩, 0x3F19, none) := by decide +kernel
theorem test_final_in_absorb :
    seen (fun t => (t.st, t.fin, lastRsp t)) (exec .final absorbing) = some (.pad80, true, some ⟨false, 0⟩) := by decide
theorem test_final_in_done :
    seen (fun t => (lastRsp t, t.status)) (exec .final finished) = some (some ⟨true, 0⟩, 0x00B9) := by decide
theorem test_rdb_last_byte : seen lastRsp (exec (.rdb 15) finished) = some (some ⟨false, 0x007E⟩) := by decide
theorem test_rdb_out_of_range :
    seen (fun t => (lastRsp t, t.status)) (exec (.rdb 16) finished) = some (some ⟨true, 0⟩, 0x00A9) := by decide
theorem test_rdh_high_four_bits_first : seen lastRsp (exec (.rdh 0) finished) = some (some ⟨false, 0x0064⟩) := by decide
theorem test_rdh_in_absorb :
    seen (fun t => (lastRsp t, t.status)) (exec (.rdh 31) { absorbing with fill := 1, len := 1 }) =
      some (some ⟨true, 0⟩, 0x0139) := by decide
theorem test_rds_in_done : seen lastRsp (exec .rds finished) = some (some ⟨false, 0x0088⟩) := by decide

/-! ### Padding (40_padding.md R105 to R107, V53, V54) -/

-- R105's example, after three bytes
theorem test_pad80_example :
    seen (fun t => (readByte t.buf 3, t.fill.val, t.st)) (exec .pad80 (padState .pad80 3 0 3)) =
      some (some 0x80, 4, .padzero) := by decide
theorem test_pad80_fills_block :
    seen (fun t => (t.fill.val, t.st)) (exec .pad80 (padState .pad80 63 0 63)) = some (64, .cload) := by decide
theorem test_padzero_writes_nothing_at_56 :
    seen (fun t => (t.fill.val, t.st)) (exec .padzero (padState .padzero 56 0 55)) = some (56, .padlen) := by decide
theorem test_padzero_spills :
    seen (fun t => (readByte t.buf 63, t.st)) (exec .padzero (padState .padzero 63 0 56)) =
      some (some 0, .cload) := by decide
-- V53: L = 2^29 + 1, byte 4 of the length field is 01
theorem test_padlen_fifth_byte :
    seen (fun t => (readByte t.buf 60, t.padk.val)) (exec .padlen (padState .padlen 60 4 0x20000001)) =
      some (some 0x01, 5) := by decide
-- V53: L = 2^61 - 1, byte 0 is f8 and byte 7 is ff
theorem test_padlen_longest :
    seen (fun t => readByte t.buf 56) (exec .padlen (padState .padlen 56 0 0x1FFFFFFFFFFFFFFF)) = some (some 0xF8) ∧
      seen (fun t => (readByte t.buf 63, t.st)) (exec .padlen (padState .padlen 63 7 0x1FFFFFFFFFFFFFFF)) =
        some (some 0xFF, .cload) := by decide +kernel

/-! ### Rounds (the examples of 42_round_datapath.md R161 to R164, V20) -/

theorem test_roundP0 :
    seen (fun t => (t.w, t.rnd)) (exec .roundP0 (roundState 0 ⟨0x67452301, 0xEFCDAB89, 0x98BADCFE, 0x10325476⟩)) =
      some (⟨0x10325476, 0xA5202774, 0xEFCDAB89, 0x98BADCFE⟩, 1) := by decide
theorem test_roundP1 :
    seen (fun t => (t.w, t.rnd)) (exec .roundP1 (roundState 16 ⟨0xF56C7CF1, 0xD6819C6A, 0x5AA53F75, 0x374943A7⟩)) =
      some (⟨0x374943A7, 0x1C7D7513, 0xD6819C6A, 0x5AA53F75⟩, 17) := by decide
-- V20, row 19: g = 0, so the word read is not 0
theorem test_roundP1_reads_first_word :
    seen State.w (exec .roundP1 (roundState 19 ⟨0xD6819C6A, 0xC095F13A, 0x7BD57A3A, 0x1C7D7513⟩)) =
      some ⟨0x1C7D7513, 0xBD782E17, 0xC095F13A, 0x7BD57A3A⟩ := by decide
theorem test_roundP2 :
    seen (fun t => (t.w, t.rnd)) (exec .roundP2 (roundState 32 ⟨0x13707036, 0xA2205F1F, 0x1C31C384, 0xAE7813DB⟩)) =
      some (⟨0xAE7813DB, 0xDF63EAA1, 0xA2205F1F, 0x1C31C384⟩, 33) := by decide
theorem test_roundP3 :
    seen (fun t => (t.w, t.rnd)) (exec .roundP3 (roundState 48 ⟨0x3F55EDFD, 0xCA7D2DBD, 0x68D84EA2, 0x22A31F54⟩)) =
      some (⟨0x22A31F54, 0x93AA2577, 0xCA7D2DBD, 0x68D84EA2⟩, 49) := by decide
-- V20, row 63: the last round stays at RND = 63 and goes to CADD
theorem test_roundP3_last :
    seen (fun t => (t.w, t.rnd, t.st)) (exec .roundP3 (roundState 63 ⟨0x30130182, 0xFF4EA3EB, 0x6E10A476, 0x7246FAD3⟩)) =
      some (⟨0x7246FAD3, 0x14E45506, 0xFF4EA3EB, 0x6E10A476⟩, 63, .cadd) := by decide
-- V71
theorem test_rotl : rotl 0x80000000 1 = 0x00000001 ∧ rotl 0x12345678 23 = 0x3C091A2B ∧
    rotl 0xDEADBEEF 0 = 0xDEADBEEF ∧ rotl 0xDEADBEEF 31 = 0xEF56DF77 := by decide
-- V72, the row that carries the truth tables
theorem test_mix : mix0 0xF0F0F0F0 0xCCCCCCCC 0xAAAAAAAA = 0xCACACACA ∧ mix1 0xF0F0F0F0 0xCCCCCCCC 0xAAAAAAAA = 0xE4E4E4E4 ∧
    mix2 0xF0F0F0F0 0xCCCCCCCC 0xAAAAAAAA = 0x96969696 ∧ mix3 0xF0F0F0F0 0xCCCCCCCC 0xAAAAAAAA = 0x39393939 := by decide
-- V73
theorem test_tables : kTable 0 = 0xD76AA478 ∧ kTable 31 = 0x8D2A4C8A ∧ kTable 32 = 0xFFFA3942 ∧ kTable 63 = 0xEB86D391 ∧
    sTable 1 = 12 ∧ sTable 31 = 20 ∧ sTable 47 = 23 ∧ sTable 48 = 6 := by decide

/-! ### Accumulator and serializer (V80, V81, V92) -/

theorem test_cload :
    seen (fun t => (t.w, t.rnd, t.st)) (exec .cload (padState .cload 64 8 0)) =
      some (⟨0xD98C1DD4, 0x04B2008F, 0x980980E9, 0x7E42F8EC⟩, 0, .round) := by decide
theorem test_cload_assert :
    seen (fun t => (t.cause, t.st, t.rsp)) (exec .cload (padState .cload 63 0 0)) =
      some (.alignAssert, .fault, []) := by decide
theorem test_cadd_wraps :
    seen (fun t => (t.h, t.fill, t.st))
      (exec .cadd { padState .cadd 64 8 0 with h := ⟨0x67452301, 0xEFCDAB89, 0x98BADCFE, 0x10325476⟩ }) =
      some (⟨0xD98C1DD4, 0x04B2008F, 0x980980E9, 0x7E42F8EC⟩, 0, .done) := by decide
theorem test_cadd_padding_goes_on : seen State.st (exec .cadd (padState .cadd 64 0 56)) = some .padzero := by decide
theorem test_views : digestByte ⟨0, 0xFFFFFFFF, 0x01234567, 0x89ABCDEF⟩ 8 = 0x67 ∧
    hexChar ⟨0, 0xFFFFFFFF, 0x01234567, 0x89ABCDEF⟩ 24 = 0x65 ∧ hexCode 9 = 0x39 ∧ hexCode 10 = 0x61 := by decide

/-! ### Steps (30_encoding.md R72; 70_reset_and_hazards.md R230; V91, V95) -/

theorem test_step_rests : step State.reset = .next State.reset := by rfl
theorem test_step_busy_holds_word :
    seen (fun t => (t.host, t.rsp, t.st)) (step (holding [0x6000] (padState .padzero 3 0 3))) =
      some ([.hold 0x6000], [], .padzero) := by decide
-- R72: in a busy state an illegal word is not accepted either
theorem test_illegal_word_waits_while_busy :
    seen (fun t => (t.st, t.cause, t.rsp)) (acceptWord 0x7000 (padState .padzero 3 0 3)) =
      some (.padzero, .none, []) := by decide
theorem test_step_withdraws_word :
    seen State.host (step { padState .padzero 3 0 3 with host := [.offer 0x6000, .quiet] }) = some [.quiet] := by decide
theorem test_step_illegal_before_state :
    seen (fun t => (t.status, lastRsp t)) (step (holding [0x2161] base)) = some (0x0029, some ⟨true, 0⟩) := by decide
theorem test_step_reset_while_busy :
    seen (fun t => (t.status, t.len, readByte t.buf 0)) (step { padState .padlen 60 4 9 with host := [.reset] }) =
      some (0x0000, 0, none) := by decide

/-! ### The pure functions (V1, V2, V51) -/

theorem test_pad_abc : (pad [0x61, 0x62, 0x63]).take 5 = [0x61, 0x62, 0x63, 0x80, 0x00] ∧
    (pad [0x61, 0x62, 0x63]).drop 55 = [0, 0x18, 0, 0, 0, 0, 0, 0, 0] := by decide
theorem test_md5_empty :
    md5 [] = [0xd4, 0x1d, 0x8c, 0xd9, 0x8f, 0x00, 0xb2, 0x04, 0xe9, 0x80, 0x09, 0x98, 0xec, 0xf8, 0x42, 0x7e] := by
  decide +kernel
theorem test_md5_abc :
    md5 [0x61, 0x62, 0x63] =
      [0x90, 0x01, 0x50, 0x98, 0x3c, 0xd2, 0x4f, 0xb0, 0xd6, 0x96, 0x3f, 0x7d, 0x28, 0xe1, 0x7f, 0x72] := by
  decide +kernel

/-! ### Program text (30_encoding.md R86, R87) -/

theorem test_assemble_push_hex :
    readLine ['P', 'U', 'S', 'H', ' ', '0', 'x', '6', '1'] = .ok (some (.command (.push 0x61))) := by decide
theorem test_assemble_comment : readLine [' ', ';', 'x'] = .ok none := by decide
theorem test_assemble_range :
    readLine ['R', 'D', 'B', ' ', '1', '6'] = .error .operandRange := by decide
theorem test_assemble_pushs :
    expandLine (.pushs ['a', ' ']) = [.hold 0x2061, .hold 0x2020] := by decide

/-! ### Witnesses: states that meet the hypotheses of the statements

Each theorem names the statement; a statement of several clauses has a clause each. -/

/-- The absorbing state of V56, a well-formed one: `LEN = 2^61 - 2`, `FILL = 62`. -/
def atLimit : State := { absorbing with buf := zeros 62, fill := 62, len := 0x1FFFFFFFFFFFFFFE }

theorem inv_atLimit : State.Inv (holding [0x2041] atLimit) := by constructor <;> decide +kernel
theorem inv_absorbing : State.Inv absorbing := by constructor <;> decide +kernel
theorem inv_lastPadlen : State.Inv (padState .padlen 63 7 3) := by constructor <;> decide +kernel
theorem inv_lastRound : State.Inv (roundState 63 base.w) := by constructor <;> decide +kernel
theorem inv_faulted : State.Inv faulted := by constructor <;> decide +kernel
theorem inv_finished : State.Inv finished := by constructor <;> decide +kernel

theorem witness_ResetEventClearsControlState :
    ({ padState .padlen 63 7 3 with host := [.reset, .quiet] } : State).host = .reset :: [.quiet] := by decide

theorem witness_StepKeepsWellFormedness :
    (State.Inv (holding [0x2041] atLimit) ∧ ∃ t, step (holding [0x2041] atLimit) = .next t) ∧
      State.Inv (padState .padlen 63 7 3) ∧ ∃ t, step (padState .padlen 63 7 3) = .next t :=
  ⟨⟨inv_atLimit, next_of (by decide +kernel)⟩, inv_lastPadlen, next_of (by decide +kernel)⟩

theorem witness_WellFormedStatesNeverStop : State.Inv (roundState 63 base.w) ∧ State.Inv faulted :=
  ⟨inv_lastRound, inv_faulted⟩

theorem witness_AlignAssertIsUnreachable :
    State.Inv (padState .padlen 63 7 3) ∧ (∃ t, step (padState .padlen 63 7 3) = .next t) ∧
      (padState .padlen 63 7 3).cause ≠ .alignAssert :=
  ⟨inv_lastPadlen, next_of (by decide +kernel), by decide⟩

theorem witness_StepKeepsBufferCanonical :
    Memory.wf (padState .padlen 63 7 3).buf = true ∧ ∃ t, step (padState .padlen 63 7 3) = .next t :=
  ⟨by decide, next_of (by decide +kernel)⟩

theorem witness_DecodeOfEncode : (Instr.rdb 15).wf = true ∧ (Instr.rdh 31).wf = true ∧ (Instr.push 0xFF).wf = true := by
  decide

theorem witness_EncodeOfDecodedCommand :
    decodeCommand 0x400F = .ok (.rdb 15) ∧ decodeCommand 0x501F = .ok (.rdh 31) ∧
      decodeCommand 0x20FF = .ok (.push 0xFF) := by decide

theorem witness_IllegalWordsFault :
    (IllegalWord 0x7000 ∧ IllegalWord 0x0100 ∧ IllegalWord 0x6001 ∧ IllegalWord 0x4010 ∧ IllegalWord 0x5020) ∧
      finished.ready = true ∧ base.ready = true := by
  unfold IllegalWord; decide

theorem witness_MicroOperationPatterns :
    ((padState .padlen 63 7 3).ready = false ∧ (padState .padlen 63 7 3).host = []) ∧ faulted.ready = true := by decide

theorem witness_StepRunsDecodedInstruction :
    ((holding [0x501F] finished).ready = true ∧ decodeCommand 0x501F = .ok (.rdh 31) ∧
      (holding [0x501F] finished).host = .hold 0x501F :: []) ∧
    ((roundState 47 base.w).ready = false ∧ resetAsserted (roundState 47 base.w).host = false ∧
      decodeMicro (roundState 47 base.w).controlWord = .ok .roundP2) := by decide

theorem witness_CommandsWaitWhileBusy :
    ((holding [0x6000] (padState .padlen 63 7 3)).ready = false ∧
      (holding [0x6000] (padState .padlen 63 7 3)).host = .hold 0x6000 :: [] ∧
      ∃ t, step (holding [0x6000] (padState .padlen 63 7 3)) = .next t) ∧
    (faulted.ready = true ∧ faulted.host = []) ∧
    ((holding [0x6000] faulted).ready = true ∧ (holding [0x6000] faulted).host = .hold 0x6000 :: [] ∧
      ∃ t, step (holding [0x6000] faulted) = .next t) :=
  ⟨⟨by decide, by decide, next_of (by decide +kernel)⟩, by decide, by decide, by decide, next_of (by decide)⟩

theorem witness_BusyCommandChangesNothing : Instr.init.isCommand = true ∧ (inState .cadd).ready = false := by decide

theorem witness_ResponseOfEachCommand :
    (finished.ready = true ∧ ∃ t, acceptWord 0x501F finished = .next t ∧ lastRsp t = some ⟨false, 0x0065⟩) ∧
    (faulted.ready = true ∧ faulted.st = .fault ∧ ∃ t, acceptWord 0x3000 faulted = .next t ∧
      lastRsp t = some ⟨true, 0⟩) :=
  ⟨⟨by decide, next_with (by decide)⟩, by decide, by decide, next_with (by decide)⟩

theorem witness_NopEffect : faulted.ready = true := by decide
theorem witness_InitEffect : finished.ready = true := by decide

theorem witness_PushEffect :
    (finished.ready = true ∧ finished.st ≠ .absorb) ∧
    ((nearlyFull 0x1FFFFFFFFFFFFFFF).ready = true ∧ (nearlyFull 0x1FFFFFFFFFFFFFFF).st = .absorb ∧
      (nearlyFull 0x1FFFFFFFFFFFFFFF).len.toNat = 2 ^ 61 - 1) ∧
    ((nearlyFull 0x1FFFFFFFFFFFFFFE).ready = true ∧ (nearlyFull 0x1FFFFFFFFFFFFFFE).st = .absorb ∧
      (nearlyFull 0x1FFFFFFFFFFFFFFE).len.toNat < 2 ^ 61 - 1 ∧ (nearlyFull 0x1FFFFFFFFFFFFFFE).fill.val < 64) := by decide

theorem witness_FinalEffect :
    (absorbing.ready = true ∧ absorbing.st = .absorb) ∧ (faulted.ready = true ∧ faulted.st ≠ .absorb) := by decide

theorem witness_RdbEffect :
    (finished.ready = true ∧ (15 : Byte).toNat ≤ 15 ∧ finished.st = .done) ∧
      (faulted.ready = true ∧ (15 : Byte).toNat ≤ 15 ∧ faulted.st ≠ .done) ∧
      (finished.ready = true ∧ 15 < (16 : Byte).toNat) := by decide

theorem witness_RdhEffect :
    (finished.ready = true ∧ (31 : Byte).toNat ≤ 31 ∧ finished.st = .done) ∧
      (absorbing.ready = true ∧ (31 : Byte).toNat ≤ 31 ∧ absorbing.st ≠ .done) ∧
      (finished.ready = true ∧ 31 < (32 : Byte).toNat) := by decide

theorem witness_RdsReturnsStatus : faulted.ready = true ∧ base.ready = true := by decide

theorem witness_Pad80Effect :
    (padState .pad80 63 0 63).st = .pad80 ∧ (padState .pad80 63 0 63).fill.val < 64 := by decide

theorem witness_PadzeroEffect :
    ((padState .padzero 56 0 55).st = .padzero ∧ (padState .padzero 56 0 55).fill.val = 56) ∧
      ((padState .padzero 63 0 56).st = .padzero ∧ (padState .padzero 63 0 56).fill.val ≠ 56 ∧
        (padState .padzero 63 0 56).fill.val < 64) := by decide

theorem witness_PadlenEffect :
    (padState .padlen 63 7 3).st = .padlen ∧ (padState .padlen 63 7 3).padk.val < 8 ∧
      (padState .padlen 63 7 3).fill.val < 64 ∧
      (padState .padlen 63 7 3).fill.val = 56 + (padState .padlen 63 7 3).padk.val := by decide

theorem witness_CloadEffect :
    ((padState .cload 64 8 0).st = .cload ∧ (padState .cload 64 8 0).fill.val = 64) ∧
      ((padState .cload 63 0 0).st = .cload ∧ (padState .cload 63 0 0).fill.val ≠ 64) := by decide

theorem witness_CaddEffect : (padState .cadd 64 8 0).st = .cadd := by decide

theorem witness_RoundEffects :
    ((roundState 15 base.w).st = .round ∧ (roundState 15 base.w).rnd.toNat / 16 = 0 ∧
      messageWord (roundState 15 base.w).buf 15 = some 0) ∧
    ((roundState 19 base.w).rnd.toNat / 16 = 1 ∧ messageWord (roundState 19 base.w).buf ((5 * 19 + 1) % 16) = some 0x80) ∧
    ((roundState 47 base.w).rnd.toNat / 16 = 2 ∧ messageWord (roundState 47 base.w).buf ((3 * 47 + 5) % 16) = some 0) ∧
    ((roundState 63 base.w).rnd.toNat / 16 = 3 ∧ messageWord (roundState 63 base.w).buf ((7 * 63) % 16) = some 0) := by
  decide +kernel

theorem witness_MixingFunctionsBitByBit : (31 : Nat) < 32 := by decide
theorem witness_RotationMovesEveryBit : ((31 : BitVec 5) ≠ 0 ∧ (0 : BitVec 5) = 0) ∧ (31 : Nat) < 32 := by decide
theorem witness_ScheduleUsesEachWordOncePerPhase :
    (3 : Nat) < 4 ∧ (15 : Nat) < 16 ∧ schedOf (16 * 3 + 9) = 15 := by decide

theorem witness_MessageWordsAreLittleEndian :
    readByte emptyBlock (4 * 15) = some 0 ∧ readByte emptyBlock (4 * 15 + 1) = some 0 ∧
      readByte emptyBlock (4 * 15 + 2) = some 0 ∧ readByte emptyBlock (4 * 15 + 3) = some 0 ∧
      readByte emptyBlock (4 * 0) = some 0x80 := by decide

theorem witness_DigestViewIsLittleEndian : (15 : Nat) < 16 := by decide
theorem witness_HexViewRendersDigest : (31 : Nat) < 32 ∧ 31 % 2 = 1 ∧ (30 : Nat) < 32 ∧ 30 % 2 = 0 := by decide

theorem witness_FaultEntryWritesCauseAndStateOnly :
    ∃ t, step (holding [0x7000] faulted) = .next t ∧ t.st = .fault ∧ (holding [0x7000] faulted).cause ≠ .none :=
  ⟨_, rfl, by decide, by decide⟩

theorem witness_SequenceErrors :
    ((Instr.push 0xFF).wf = true ∧ finished.st = .done ∧ base.st = .idle ∧ faulted.st = .fault) ∧
      ((Instr.rdb 15).wf = true ∧ (Instr.rdh 31).wf = true ∧ absorbing.st = .absorb) := by decide

theorem witness_FaultPriority :
    ((holding [0x2161] base).cause = .none ∧ (holding [0x2161] base).ready = true ∧
      (∃ t, step (holding [0x2161] base) = .next t) ∧ (holding [0x2161] base).host = .hold 0x2161 :: [] ∧
      IllegalWord 0x2161) ∧
    (base.cause = .none ∧ (∃ t, step (holding [0x2061] base) = .next t) ∧ decodeCommand 0x2061 = .ok (.push 0x61) ∧
      base.st ≠ .absorb) ∧
    ((nearlyFull 0x1FFFFFFFFFFFFFFF).cause = .none ∧ (∃ t, step (holding [0x2061] (nearlyFull 0x1FFFFFFFFFFFFFFF)) = .next t) ∧
      (nearlyFull 0x1FFFFFFFFFFFFFFF).st = .absorb ∧ (nearlyFull 0x1FFFFFFFFFFFFFFF).len.toNat = 2 ^ 61 - 1) ∧
    ((∃ t, step { base with host := [.reset, .hold 0x7000] } = .next t) ∧
      ({ base with host := [.reset, .hold 0x7000] } : State).host = .reset :: .hold 0x7000 :: []) :=
  ⟨⟨by decide, by decide, next_of (by decide), by decide, by unfold IllegalWord; decide⟩,
    ⟨by decide, next_of (by decide), by decide, by decide⟩,
    ⟨by decide, next_of (by decide +kernel), by decide, by decide⟩, ⟨_, rfl⟩, by decide⟩

theorem witness_OnlyInitLeavesFault :
    faulted.st = .fault ∧ faulted.cause ≠ .none ∧ decodeCommand 0x0000 = .ok .nop ∧
      decodeCommand 0x6000 = .ok .rds ∧ decodeCommand 0x1000 = .ok .init ∧
      (decodeCommand 0x400F ≠ .ok .nop ∧ decodeCommand 0x400F ≠ .ok .rds ∧ decodeCommand 0x400F ≠ .ok .init) := by decide

theorem witness_StopsByName :
    ((inState .round).st = .round ∧ messageWord (inState .round).buf (schedOf (inState .round).rnd.toNat) = none) ∧
    (({ absorbing with fill := 64 } : State).fill.val = 64 ∧ ({ absorbing with fill := 64 } : State).st = .absorb ∧
      ({ absorbing with fill := 64 } : State).len.toNat ≠ 2 ^ 61 - 1) ∧
    ((padState .pad80 64 0 0).fill.val = 64 ∧ (padState .pad80 64 0 0).st = .pad80) ∧
    ((padState .padzero 64 0 0).fill.val = 64 ∧ (padState .padzero 64 0 0).st = .padzero) ∧
    ((padState .padlen 64 7 0).fill.val = 64 ∧ (padState .padlen 64 7 0).st = .padlen ∧
      (padState .padlen 64 7 0).padk.val < 8) ∧
    ((padState .padlen 64 8 0).padk.val = 8 ∧ base.st ≠ .pad80 ∧ base.st ≠ .padzero ∧ base.st ≠ .cload ∧
      base.st ≠ .round ∧ base.st ≠ .cadd) ∧
    phaseOf (roundState 16 base.w).rnd ≠ 0 ∧ phaseOf (roundState 15 base.w).rnd ≠ 1 := by decide

theorem witness_TransitionTable :
    ((∃ t, step (holding [0x2041] (nearlyFull 63)) = .next t) ∧ (nearlyFull 63).ready = true ∧
      Presents (holding [0x2041] (nearlyFull 63)) 0x2041) ∧
    (∃ t, step { faulted with host := [.reset] } = .next t ∧ resetAsserted [HostEvent.reset] = true) ∧
    (∃ t, step { faulted with host := [.quiet] } = .next t ∧ faulted.ready = true) ∧
    ((∃ t, step (padState .padlen 63 7 3) = .next t) ∧ (padState .padlen 63 7 3).ready = false ∧
      resetAsserted (padState .padlen 63 7 3).host = false) :=
  ⟨⟨next_of (by decide +kernel), by decide, [], .inl rfl⟩, ⟨_, rfl, by decide⟩, ⟨_, rfl, by decide⟩,
    next_of (by decide +kernel), by decide, by decide⟩

theorem witness_FullBlockStartsCompression :
    (∃ t, step (padState .padlen 63 7 3) = .next t ∧ t.fill.val = 64 ∧ t.st = .cload) ∧
      (padState .padlen 63 7 3).fill.val ≠ 64 ∧ (padState .padlen 63 7 3).st ≠ .cload :=
  ⟨next_with (by decide +kernel), by decide, by decide⟩

theorem witness_WritersOfTheRegisters :
    (resetAsserted (padState .cadd 64 8 0).host = false ∧ ∃ t, step (padState .cadd 64 8 0) = .next t ∧
      t.h ≠ (padState .cadd 64 8 0).h) ∧
    (∃ t, step (holding [0x2041] (nearlyFull 63)) = .next t ∧ t.len ≠ (nearlyFull 63).len) ∧
    (∃ t, step (holding [0x3000] absorbing) = .next t ∧ t.fin ≠ absorbing.fin) ∧
    (∃ t, step (holding [0x1000] faulted) = .next t ∧ t.cause ≠ faulted.cause) :=
  ⟨⟨by decide, next_with (by decide +kernel)⟩, next_with (by decide +kernel), next_with (by decide),
    next_with (by decide)⟩

theorem witness_DigestIsStable :
    ∃ t, (holding [0x501F] finished).st = .done ∧ (holding [0x501F] finished).host = .hold 0x501F :: [] ∧
      step (holding [0x501F] finished) = .next t ∧ (0x501F : CommandWord) ≠ 0x1000 ∧ t.st ≠ .fault :=
  ⟨_, by decide, by decide, rfl, by decide, by decide⟩

/-- Two states in IDLE with different data registers. -/
theorem witness_DeadDataIsNeverSeen :
    SameBehaviour base { base with h := ⟨0, 0, 0, 0⟩, w := ⟨0, 0, 0, 0⟩ } ∧
      (∃ t, step base = .next t) ∧ (∃ f, step { absorbing with fill := 64, host := [.hold 0x2061] } = .fault f) ∧
      ∃ r, step (padState .padlen 63 8 0) = .refused r :=
  ⟨by constructor <;> first | rfl | simp [base, hashLive, localLive, State.reset], ⟨_, rfl⟩, ⟨.bufferIndex, rfl⟩,
    .notEnabled, rfl⟩

theorem witness_PaddingAddsFewestZeros :
    ([0x61] : List Byte).length ≤ 2 ^ 61 - 1 ∧ (0 : Nat) < zeroCount 56 ∧ zeroCount 55 = 0 := by decide
theorem witness_PaddingIsRecoverable : ([] : List Byte).length ≤ 2 ^ 61 - 1 := by decide

theorem witness_BlockIsCompressed :
    (padState .cload 64 8 0).st = .cload ∧ (padState .cload 64 8 0).fill.val = 64 ∧
      HoldsBlock (padState .cload 64 8 0).buf (List.replicate 64 0) ∧
      resetAsserted (padState .cload 64 8 0).host = false ∧
      waiting (padState .cload 64 8 0).host = (padState .cload 64 8 0).host := by
  unfold HoldsBlock; decide

theorem witness_PushExtendsTheMessage :
    finished.ready = true ∧ Absorbed { absorbing with h := initialHash } [] ∧ ([] : List Byte).length < 2 ^ 61 - 1 ∧
      ({ absorbing with h := initialHash } : State).host = [] :=
  ⟨by decide, by constructor <;> decide, by decide, by decide⟩

theorem witness_RunsEnd :
    State.Inv (holding [0x2041] atLimit) ∧ (holding [0x2041] atLimit).host = [(0x2041 : CommandWord)].map .hold :=
  ⟨inv_atLimit, by decide⟩

theorem witness_DigestHasSixteenBytes : (0x64 : Byte) ∈ md5hex [] := by decide +kernel

theorem witness_EngineComputesMd5 :
    ([0x61] : List Byte).length ≤ 2 ^ 61 - 1 ∧ ({ faulted with host := digestInputs [0x61] } : State).ready = true ∧
      ({ faulted with host := digestInputs [0x61] } : State).host = digestInputs [0x61] := by decide

theorem witness_BusyPeriodsEnd :
    State.Inv (padState .padlen 63 7 3) ∧ (padState .padlen 63 7 3).ready = false ∧
      resetAsserted (padState .padlen 63 7 3).host = false ∧
      waiting (padState .padlen 63 7 3).host = (padState .padlen 63 7 3).host :=
  ⟨inv_lastPadlen, by decide, by decide, by decide⟩

theorem witness_FinalEndsInDone : State.Inv absorbing ∧ absorbing.st = .absorb ∧ absorbing.host = [] :=
  ⟨inv_absorbing, by decide, by decide⟩

theorem witness_BigStepIsSmallSteps : State.Inv finished ∧ finished.ready = true ∧ finished.host = [] :=
  ⟨inv_finished, by decide, by decide⟩

theorem witness_PseudoInstructionsExpand : ['~', ' '].all isTextChar = true := by decide

end Sys2Proof.Tests
end

section
/-! SUPPORT. 20_memory.md R52, R54: the number and the four byte fields of a message word. -/

namespace Sys2Proof.Machine

/-- The number of `{x, y}` (00_scope.md R8): the low part does not reach the bits of the high part. -/
theorem toNat_append_eq_add {m n : Nat} (x : BitVec m) (y : BitVec n) :
    (x ++ y).toNat = x.toNat * 2 ^ n + y.toNat := by
  rw [BitVec.toNat_append, ← Nat.shiftLeft_add_eq_or_of_lt y.isLt, Nat.shiftLeft_eq]

/-- 20_memory.md R52: the sum of the four shifted bytes, the first byte the least significant. -/
theorem toNat_wordOfBytes (b0 b1 b2 b3 : Byte) :
    (wordOfBytes b0 b1 b2 b3).toNat =
      b0.toNat + b1.toNat * 2 ^ 8 + b2.toNat * 2 ^ 16 + b3.toNat * 2 ^ 24 := by
  simp only [wordOfBytes, toNat_append_eq_add]
  omega

/-- 20_memory.md R54: byte `k` of the word is bits `8k + 7` down to `8k` of it. -/
theorem byteFields_wordOfBytes (b0 b1 b2 b3 : Byte) :
    (wordOfBytes b0 b1 b2 b3).extractLsb' 0 8 = b0 ∧ (wordOfBytes b0 b1 b2 b3).extractLsb' 8 8 = b1 ∧
      (wordOfBytes b0 b1 b2 b3).extractLsb' 16 8 = b2 ∧ (wordOfBytes b0 b1 b2 b3).extractLsb' 24 8 = b3 := by
  unfold wordOfBytes
  refine ⟨BitVec.extractLsb'_append_eq_right, ?_, ?_, ?_⟩
  · rw [BitVec.extractLsb'_append_eq_of_le (by decide)]
    exact BitVec.extractLsb'_append_eq_right
  · iterate 2 rw [BitVec.extractLsb'_append_eq_of_le (by decide)]
    exact BitVec.extractLsb'_append_eq_right
  · iterate 2 rw [BitVec.extractLsb'_append_eq_of_le (by decide)]
    exact BitVec.extractLsb'_append_eq_left

end Sys2Proof.Machine

namespace Sys2Proof.Proofs

open Sys2Proof.Machine

/-- Settles O34: the word of four written bytes is `wordOfBytes` of them, whose number and byte fields are known. -/
theorem messageWordsAreLittleEndian : Obligations.MessageWordsAreLittleEndian := by
  intro buf j b0 b1 b2 b3 h0 h1 h2 h3
  exact ⟨wordOfBytes b0 b1 b2 b3, messageWord_some h0 h1 h2 h3, toNat_wordOfBytes b0 b1 b2 b3,
    byteFields_wordOfBytes b0 b1 b2 b3⟩

end Sys2Proof.Proofs
end

section
/-! SUPPORT. Fields and masks: a word as the concatenation of its fields, and a mask read field by field (30_encoding.md
R71, R74, R84). -/

namespace Sys2Proof

/-- Two concatenations of parts of the same widths are equal part by part. -/
theorem append_eq_append_iff {m n : Nat} {x x' : BitVec m} {y y' : BitVec n} :
    x ++ y = x' ++ y' ↔ x = x' ∧ y = y' := by
  constructor
  · intro h
    have hl := congrArg (BitVec.extractLsb' n m) h
    have hr := congrArg (BitVec.extractLsb' 0 n) h
    rw [BitVec.extractLsb'_append_eq_left, BitVec.extractLsb'_append_eq_left] at hl
    rw [BitVec.extractLsb'_append_eq_right, BitVec.extractLsb'_append_eq_right] at hr
    exact ⟨hl, hr⟩
  · rintro ⟨rfl, rfl⟩; rfl

/-- A mask that keeps the `m` high bits and drops the `n` low ones is 0 on exactly the numbers below `2 ^ n`. -/
theorem and_highMask_eq_zero_iff {m n : Nat} (x : BitVec (m + n)) :
    x &&& (BitVec.allOnes m ++ 0#n) = 0#m ++ 0#n ↔ x.toNat < 2 ^ n := by
  obtain ⟨hi, lo, rfl⟩ : ∃ (hi : BitVec m) (lo : BitVec n), x = hi ++ lo :=
    ⟨x.extractLsb' n m, x.extractLsb' 0 n, by
      rw [BitVec.extractLsb'_append_extractLsb'_eq_extractLsb' (Nat.zero_add n).symm, BitVec.extractLsb'_eq_self]⟩
  rw [BitVec.and_append, BitVec.and_allOnes, BitVec.and_zero, append_eq_append_iff, Machine.toNat_append_eq_add,
    BitVec.toNat_eq, BitVec.toNat_zero, eq_self, and_true]
  constructor
  · intro h
    rw [h, Nat.zero_mul, Nat.zero_add]
    exact lo.isLt
  · intro h
    by_contra hne
    have := Nat.le_mul_of_pos_left (2 ^ n) (Nat.pos_of_ne_zero hne)
    omega

/-- A command word is the concatenation of its fields (30_encoding.md R71). -/
theorem fields_append (w : CommandWord) : (opField w ++ rsvField w) ++ immField w = w := by
  unfold opField rsvField immField
  rw [BitVec.extractLsb'_append_extractLsb'_eq_extractLsb' (by rfl),
    BitVec.extractLsb'_append_extractLsb'_eq_extractLsb' (by rfl), BitVec.extractLsb'_eq_self]

/-- A row of 30_encoding.md R74: its mask keeps `OP` and `RSV` whole and the bits `m` of `IMM`, its match has `RSV` 0. -/
theorem and_mask_eq_match_iff (w : CommandWord) (m v : Byte) (op : BitVec 4) :
    w &&& ((15#4 ++ 15#4) ++ m) = (op ++ 0#4) ++ v ↔
      opField w = op ∧ rsvField w = 0 ∧ immField w &&& m = v := by
  conv_lhs => rw [← fields_append w]
  have hones : (15#4 : BitVec 4) = BitVec.allOnes 4 := rfl
  rw [BitVec.and_append, BitVec.and_append, hones, BitVec.and_allOnes, BitVec.and_allOnes, append_eq_append_iff,
    append_eq_append_iff, and_assoc]
  rfl

/-- A row of a command without operand, mask `0xFFFF`. -/
theorem and_mask_FFFF_iff (w : CommandWord) (op : BitVec 4) :
    w &&& 0xFFFF = (op ++ 0#4) ++ 0#8 ↔ opField w = op ∧ rsvField w = 0 ∧ immField w = 0 := by
  have h := and_mask_eq_match_iff w (BitVec.allOnes 8) 0 op
  rwa [BitVec.and_allOnes] at h

/-- The row of PUSH, mask `0xFF00`. -/
theorem and_mask_FF00_iff (w : CommandWord) :
    w &&& 0xFF00 = 0x2000 ↔ opField w = 2 ∧ rsvField w = 0 := by
  have h := and_mask_eq_match_iff w 0#8 0#8 2
  rwa [BitVec.and_zero, eq_self, and_true] at h

/-- The row of RDB, mask `0xFFF0`. -/
theorem and_mask_FFF0_iff (w : CommandWord) :
    w &&& 0xFFF0 = 0x4000 ↔ opField w = 4 ∧ rsvField w = 0 ∧ (immField w).toNat ≤ 15 := by
  have hlow : immField w &&& 0xF0 = 0 ↔ (immField w).toNat < 16 :=
    and_highMask_eq_zero_iff (m := 4) (n := 4) (immField w)
  rw [← Nat.lt_succ_iff, ← hlow]
  exact and_mask_eq_match_iff w 0xF0 0 4

/-- The row of RDH, mask `0xFFE0`. -/
theorem and_mask_FFE0_iff (w : CommandWord) :
    w &&& 0xFFE0 = 0x5000 ↔ opField w = 5 ∧ rsvField w = 0 ∧ (immField w).toNat ≤ 31 := by
  have hlow : immField w &&& 0xE0 = 0 ↔ (immField w).toNat < 32 :=
    and_highMask_eq_zero_iff (m := 3) (n := 5) (immField w)
  rw [← Nat.lt_succ_iff, ← hlow]
  exact and_mask_eq_match_iff w 0xE0 0 5

/-- A control word is the concatenation of `ST`, the phase and the position within the phase (30_encoding.md R84). -/
theorem controlFields_append (u : ControlWord) :
    stField u ++ (phaseOf (rndField u) ++ (rndField u).extractLsb' 0 4) = u := by
  unfold stField phaseOf
  rw [BitVec.extractLsb'_append_extractLsb'_eq_extractLsb' (by rfl), BitVec.extractLsb'_eq_self, rndField,
    BitVec.extractLsb'_append_extractLsb'_eq_extractLsb' (by rfl), BitVec.extractLsb'_eq_self]

/-- A row of 30_encoding.md R84 with mask `0x3C0`, which keeps `ST`. -/
theorem and_mask_3C0_iff (u : ControlWord) (c : BitVec 4) : u &&& 0x3C0 = c ++ 0#6 ↔ stField u = c := by
  have h : u &&& (BitVec.allOnes 4 ++ 0#6) = c ++ 0#6 ↔ stField u = c := by
    conv_lhs => rw [← controlFields_append u]
    rw [BitVec.and_append, BitVec.and_allOnes, BitVec.and_zero, append_eq_append_iff, eq_self, and_true]
  exact h

/-- A row of 30_encoding.md R84 with mask `0x3F0`, which keeps `ST` and the phase. -/
theorem and_mask_3F0_iff (u : ControlWord) (c : BitVec 4) (p : BitVec 2) :
    u &&& 0x3F0 = c ++ (p ++ 0#4) ↔ stField u = c ∧ phaseOf (rndField u) = p := by
  have h : u &&& (BitVec.allOnes 4 ++ (BitVec.allOnes 2 ++ 0#4)) = c ++ (p ++ 0#4) ↔
      stField u = c ∧ phaseOf (rndField u) = p := by
    conv_lhs => rw [← controlFields_append u]
    rw [BitVec.and_append, BitVec.and_append, BitVec.and_allOnes, BitVec.and_allOnes, BitVec.and_zero,
      append_eq_append_iff, append_eq_append_iff, eq_self, and_true]
  exact h

end Sys2Proof
end

section
/-! SUPPORT. Which command words are illegal, by their fields and by the seven patterns (30_encoding.md R74, R80). -/

namespace Sys2Proof

open Sys2Proof.Machine

/-- The values of `OP`: the seven commands and the reserved codes. -/
theorem opField_cases (w : CommandWord) :
    opField w = 0 ∨ opField w = 1 ∨ opField w = 2 ∨ opField w = 3 ∨ opField w = 4 ∨ opField w = 5 ∨ opField w = 6 ∨
      7 ≤ (opField w).toNat := by
  have h : ∀ op : BitVec 4, op = 0 ∨ op = 1 ∨ op = 2 ∨ op = 3 ∨ op = 4 ∨ op = 5 ∨ op = 6 ∨ 7 ≤ op.toNat := by decide
  exact h (opField w)

theorem opField_ne_of_reserved {w : CommandWord} (h : 7 ≤ (opField w).toNat) {op : BitVec 4} (hop : op.toNat < 7) :
    opField w ≠ op := by
  rintro rfl
  omega

theorem withoutOperand_error_iff (imm : Byte) (i : Instr) :
    (∃ e, withoutOperand imm i = .error e) ↔ imm ≠ 0 := by
  unfold withoutOperand
  split <;> simp_all

theorem withIndex_error_iff (imm : Byte) (greatest : Nat) (e : DecodeError) (i : Instr) :
    (∃ e', withIndex imm greatest e i = .error e') ↔ greatest < imm.toNat := by
  unfold withIndex
  split <;> simp_all

/-- 30_encoding.md R80: the decoder rejects exactly the illegal words. -/
theorem decodeCommand_error_iff (w : CommandWord) :
    (∃ e, decodeCommand w = .error e) ↔ IllegalWord w := by
  unfold IllegalWord decodeCommand
  by_cases hr : rsvField w = 0
  · rw [if_neg (not_not.2 hr)]
    obtain h | h | h | h | h | h | h | h := opField_cases w
    · simpa [hr, h] using withoutOperand_error_iff (immField w) .nop
    · simpa [hr, h] using withoutOperand_error_iff (immField w) .init
    · simp [hr, h]
    · simpa [hr, h] using withoutOperand_error_iff (immField w) .final
    · simpa [hr, h, maxDigestIndex] using withIndex_error_iff (immField w) 15 .digestIndex (.rdb (immField w))
    · simpa [hr, h, maxHexIndex] using withIndex_error_iff (immField w) 31 .hexIndex (.rdh (immField w))
    · simpa [hr, h] using withoutOperand_error_iff (immField w) .rds
    · refine iff_of_true ?_ (.inl h)
      split
      case h_8 => exact ⟨_, rfl⟩
      all_goals omega
  · rw [if_pos hr]
    exact iff_of_true ⟨_, rfl⟩ (.inr (.inl hr))

/-- 30_encoding.md R80: a word is illegal exactly when it matches no row of R74. -/
theorem illegalWord_iff_no_pattern (w : CommandWord) :
    IllegalWord w ↔ ¬ (w &&& 0xFFFF = 0x0000 ∨ w &&& 0xFFFF = 0x1000 ∨ w &&& 0xFF00 = 0x2000 ∨
      w &&& 0xFFFF = 0x3000 ∨ w &&& 0xFFF0 = 0x4000 ∨ w &&& 0xFFE0 = 0x5000 ∨ w &&& 0xFFFF = 0x6000) := by
  have nop : w &&& 0xFFFF = 0x0000 ↔ _ := and_mask_FFFF_iff w 0
  have init : w &&& 0xFFFF = 0x1000 ↔ _ := and_mask_FFFF_iff w 1
  have final : w &&& 0xFFFF = 0x3000 ↔ _ := and_mask_FFFF_iff w 3
  have rds : w &&& 0xFFFF = 0x6000 ↔ _ := and_mask_FFFF_iff w 6
  rw [nop, init, and_mask_FF00_iff, final, and_mask_FFF0_iff, and_mask_FFE0_iff, rds]
  unfold IllegalWord
  by_cases hr : rsvField w = 0
  · obtain h | h | h | h | h | h | h | h := opField_cases w
    iterate 7 · simp [hr, h]
    · simp [h, opField_ne_of_reserved h]
  · rw [iff_true_left (.inr (.inl hr))]
    simp only [hr, false_and, and_false, or_self, not_false_eq_true]

/-- 60_exceptions.md R203: an accepted illegal word raises ILLEGAL_COMMAND. -/
theorem acceptWord_illegal {w : CommandWord} {s : State} (hw : IllegalWord w) (hr : s.ready = true) :
    acceptWord w s = .next (raiseCommand .illegalCommand s) := by
  obtain ⟨e, hd⟩ := (decodeCommand_error_iff w).2 hw
  exact acceptWord_error hr hd

end Sys2Proof

namespace Sys2Proof.Proofs

open Sys2Proof.Machine

/-- Settles O11: by the decoder's rejections, the seven patterns read field by field, and fault entry. -/
theorem illegalWordsFault : Obligations.IllegalWordsFault := by
  intro w
  exact ⟨decodeCommand_error_iff w, illegalWord_iff_no_pattern w, fun _ hw hr => acceptWord_illegal hw hr⟩

end Sys2Proof.Proofs
end

section
/-! SUPPORT. The micro-operation that a control word selects, by its fields, and the one a busy step runs (30_encoding.md
R84). -/

namespace Sys2Proof

open Sys2Proof.Machine

theorem roundOfPhase_eq_iff (p : BitVec 2) :
    (roundOfPhase p = .roundP0 ↔ p = 0) ∧ (roundOfPhase p = .roundP1 ↔ p = 1) ∧
      (roundOfPhase p = .roundP2 ↔ p = 2) ∧ (roundOfPhase p = .roundP3 ↔ p = 3) := by
  revert p; decide

theorem roundOfPhase_ne (p : BitVec 2) :
    roundOfPhase p ≠ .pad80 ∧ roundOfPhase p ≠ .padzero ∧ roundOfPhase p ≠ .padlen ∧ roundOfPhase p ≠ .cload ∧
      roundOfPhase p ≠ .cadd := by
  revert p; decide

/-- The decoder of control words by its two fields, arm by arm (30_encoding.md R84). -/
theorem decodeMicro_eq_iff_fields (u : ControlWord) :
    (decodeMicro u = .ok .pad80 ↔ stField u = 2) ∧
    (decodeMicro u = .ok .padzero ↔ stField u = 3) ∧
    (decodeMicro u = .ok .padlen ↔ stField u = 4) ∧
    (decodeMicro u = .ok .cload ↔ stField u = 5) ∧
    (decodeMicro u = .ok .roundP0 ↔ stField u = 6 ∧ phaseOf (rndField u) = 0) ∧
    (decodeMicro u = .ok .roundP1 ↔ stField u = 6 ∧ phaseOf (rndField u) = 1) ∧
    (decodeMicro u = .ok .roundP2 ↔ stField u = 6 ∧ phaseOf (rndField u) = 2) ∧
    (decodeMicro u = .ok .roundP3 ↔ stField u = 6 ∧ phaseOf (rndField u) = 3) ∧
    (decodeMicro u = .ok .cadd ↔ stField u = 7) ∧
    (decodeMicro u = .error .readyState ↔ stField u = 0 ∨ stField u = 1 ∨ stField u = 8 ∨ stField u = 9) ∧
    (decodeMicro u = .error .reservedState ↔ 10 ≤ (stField u).toNat) := by
  have hphase := roundOfPhase_eq_iff (phaseOf (rndField u))
  have hother := roundOfPhase_ne (phaseOf (rndField u))
  simp only [decodeMicro, BitVec.toNat_eq (x := stField u)]
  split <;> simp_all
  case h_11 => omega

/-- In a busy state the control word selects one micro-operation, and with nothing presented the step runs it. -/
theorem busy_runs_selectedMicro {s : State} (hb : s.ready = false) :
    ∃ i, decodeMicro s.controlWord = .ok i ∧ i.isCommand = false ∧ (s.host = [] → step s = exec i s) := by
  refine ⟨enabledMicro s, decodeMicro_controlWord hb, enabledMicro_isCommand s, fun hh => ?_⟩
  exact step_busy_waiting (by rw [hh]; rfl) (by rw [hh]; rfl) hb

end Sys2Proof

namespace Sys2Proof.Proofs

open Sys2Proof.Machine

/-- Settles O12: each row's mask reads the fields that the decoder reads. -/
theorem microOperationPatterns : Obligations.MicroOperationPatterns := by
  refine ⟨fun u => ?_, fun s => ⟨busy_runs_selectedMicro, decodeMicro_ready⟩⟩
  obtain ⟨pad80, padzero, padlen, cload, p0, p1, p2, p3, cadd, errors⟩ := decodeMicro_eq_iff_fields u
  exact ⟨pad80.trans (and_mask_3C0_iff u 2).symm, padzero.trans (and_mask_3C0_iff u 3).symm,
    padlen.trans (and_mask_3C0_iff u 4).symm, cload.trans (and_mask_3C0_iff u 5).symm,
    p0.trans (and_mask_3F0_iff u 6 0).symm, p1.trans (and_mask_3F0_iff u 6 1).symm,
    p2.trans (and_mask_3F0_iff u 6 2).symm, p3.trans (and_mask_3F0_iff u 6 3).symm,
    cadd.trans (and_mask_3C0_iff u 7).symm, errors⟩

end Sys2Proof.Proofs
end

section
/-! SUPPORT. The response to an accepted word: a fault, or the command's data (30_encoding.md R73). -/

namespace Sys2Proof.Machine

theorem raiseCommand_cause_ne_none {c : Cause} (hc : c ≠ .none) (s : State) : (raiseCommand c s).cause ≠ .none := by
  rw [raiseCommand_cause]
  split
  · exact hc
  · assumption

/-- The data of the response to a command that raises no fault, by command (30_encoding.md R73). -/
def commandData (i : Instr) (s : State) : BitVec 16 :=
  match i with
  | .rdb k => (digestByte s.h k.toNat).setWidth 16
  | .rdh k => (hexChar s.h k.toNat).setWidth 16
  | .rds => s.status
  | _ => 0

/-- The block-full rule does not lead to FAULT. -/
theorem appended_st_ne_fault {b : Byte} {o : SeqState} {s : State} {h : s.fill.val < 64} (ho : o ≠ .fault) :
    (appended b o s h).st ≠ .fault := by
  rw [appended_st]
  split
  · nofun
  · exact ho

/-- An accepted command raises a fault, which NOP, RDS and INIT never do, or answers with its data and does not enter
FAULT; in FAULT only those three answer. -/
theorem command_raises_or_answers {i : Instr} {s t : State} (hr : s.ready = true) (hc : i.isCommand = true)
    (hx : ExecNext i s t) :
    (∃ c, c ≠ .none ∧ ¬ (i = .nop ∨ i = .rds ∨ i = .init) ∧ t = raiseCommand c s) ∨
    (t.rsp = s.rsp ++ [⟨false, commandData i s⟩] ∧ (s.st ≠ .fault → t.st ≠ .fault) ∧
      (s.st = .fault → i = .nop ∨ i = .rds ∨ i = .init)) := by
  cases hx with
  | waits _ hb => rw [hr] at hb; cases hb
  | raises _ hi _ hne _ => exact .inl ⟨_, hne, by simpa using hi, rfl⟩
  | nop => exact .inr ⟨rfl, id, fun _ => .inl rfl⟩
  | rds => exact .inr ⟨rfl, id, fun _ => .inr (.inl rfl)⟩
  | init => exact .inr ⟨rfl, fun _ => nofun, fun _ => .inr (.inr rfl)⟩
  | rdb _ hst => exact .inr ⟨rfl, id, by simp [hst]⟩
  | rdh _ hst => exact .inr ⟨rfl, id, by simp [hst]⟩
  | push hst _ _ => exact .inr ⟨rfl, fun _ => appended_st_ne_fault nofun, by simp [hst]⟩
  | final hst => exact .inr ⟨rfl, fun _ => nofun, by simp [hst]⟩
  | round _ hi _ => rw [hi, roundOfPhase_isCommand] at hc; cases hc
  | pad80 | padzeroEnd | padzero | padlen | cload | cloadAssert | cadd => cases hc

/-- The same of an accepted word, legal or illegal: an illegal word raises a fault. -/
theorem acceptWord_raises_or_answers {w : CommandWord} {s t : State} (hr : s.ready = true)
    (h : acceptWord w s = .next t) :
    (∃ c, c ≠ .none ∧ ¬ (decodeCommand w = .ok .nop ∨ decodeCommand w = .ok .rds ∨ decodeCommand w = .ok .init) ∧
      t = raiseCommand c s) ∨
    (∃ i, decodeCommand w = .ok i ∧ t.rsp = s.rsp ++ [⟨false, commandData i s⟩] ∧
      (s.st ≠ .fault → t.st ≠ .fault) ∧ (s.st = .fault → i = .nop ∨ i = .rds ∨ i = .init)) := by
  cases hd : decodeCommand w with
  | error e =>
    rw [acceptWord_error hr hd] at h
    exact .inl ⟨.illegalCommand, nofun, by simp, (Host.Outcome.next.inj h).symm⟩
  | ok i =>
    rw [acceptWord_ok hd] at h
    obtain ⟨c, hc, hi, ht⟩ | hok := command_raises_or_answers hr (decodeCommand_isCommand hd) (exec_next h)
    · exact .inl ⟨c, hc, by simpa using hi, ht⟩
    · exact .inr ⟨i, rfl, hok⟩

end Sys2Proof.Machine

namespace Sys2Proof.Proofs

open Sys2Proof.Machine

/-- Settles O17: an accepted word raises a fault or answers with its data. -/
theorem responseOfEachCommand : Obligations.ResponseOfEachCommand := by
  intro s t w hr h
  obtain ⟨c, hc, hw, rfl⟩ | ⟨i, hd, hrsp, hst, hfault⟩ := acceptWord_raises_or_answers hr h
  · exact ⟨⟨true, 0⟩, rfl, fun _ => ⟨rfl, raiseCommand_cause_ne_none hc s, rfl⟩, fun _ => by simpa using hw, nofun⟩
  · refine ⟨⟨false, commandData i s⟩, hrsp, nofun, fun hf => ?_, fun _ => ⟨hst, i, hd, ?_, ?_, ?_, ?_⟩⟩
    · simpa [hd] using hfault hf
    · rintro (rfl | rfl | ⟨b, rfl⟩ | rfl) <;> rfl
    · rintro k rfl; rfl
    · rintro k rfl; rfl
    · rintro rfl; rfl

end Sys2Proof.Proofs
end

section
/-! SUPPORT. Commands in a ready state where they are not legal (30_encoding.md R81). -/

namespace Sys2Proof.Machine

/-- A command asked for in a ready state where it is not legal raises SEQUENCE_ERROR, whatever its effect would be. -/
theorem accepted_legalIn_other {legal : SeqState} {s : State} (hr : s.ready = true) (hst : s.st ≠ legal)
    (effect : Result) : accepted s (legalIn legal s effect) = .next (raiseCommand .sequenceError s) := by
  rw [accepted_ready hr, legalIn_other hst]

theorem exec_push_outside_absorb {s : State} (hr : s.ready = true) (hst : s.st ≠ .absorb) (b : Byte) :
    exec (.push b) s = .next (raiseCommand .sequenceError s) :=
  accepted_legalIn_other hr hst _

theorem exec_final_outside_absorb {s : State} (hr : s.ready = true) (hst : s.st ≠ .absorb) :
    exec .final s = .next (raiseCommand .sequenceError s) :=
  accepted_legalIn_other hr hst _

theorem exec_rdb_outside_done {s : State} (hr : s.ready = true) (hst : s.st ≠ .done) {k : Byte}
    (hk : (Instr.rdb k).wf = true) : exec (.rdb k) s = .next (raiseCommand .sequenceError s) := by
  rw [show exec (.rdb k) s = execRdb k s from rfl, execRdb, if_pos (of_decide_eq_true hk), accepted_legalIn_other hr hst]

theorem exec_rdh_outside_done {s : State} (hr : s.ready = true) (hst : s.st ≠ .done) {k : Byte}
    (hk : (Instr.rdh k).wf = true) : exec (.rdh k) s = .next (raiseCommand .sequenceError s) := by
  rw [show exec (.rdh k) s = execRdh k s from rfl, execRdh, if_pos (of_decide_eq_true hk), accepted_legalIn_other hr hst]

end Sys2Proof.Machine

namespace Sys2Proof.Proofs

open Sys2Proof.Machine

/-- Settles O39: each listed state is ready and is not the one where the command is legal. -/
theorem sequenceErrors : Obligations.SequenceErrors := by
  rintro i s hwf (⟨hi, hst⟩ | ⟨hi, hst⟩)
  · have hr : s.ready = true := (ready_iff s).2 (by tauto)
    have hne : s.st ≠ .absorb := by intro h; simp [h] at hst
    obtain ⟨b, rfl⟩ | rfl := hi
    · exact exec_push_outside_absorb hr hne b
    · exact exec_final_outside_absorb hr hne
  · have hr : s.ready = true := (ready_iff s).2 (by tauto)
    have hne : s.st ≠ .done := by intro h; simp [h] at hst
    obtain ⟨k, rfl⟩ | ⟨k, rfl⟩ := hi
    · exact exec_rdb_outside_done hr hne hwf
    · exact exec_rdh_outside_done hr hne hwf

end Sys2Proof.Proofs
end

section
/-! SUPPORT. What appending a byte stores and what it leaves alone (41_sequencer.md R126; 40_padding.md R105). -/

namespace Sys2Proof.Machine

theorem storesByte_appended (b : Byte) (o : SeqState) {s : State} (h : s.fill.val < 64) :
    StoresByte s (appended b o s h) s.fill.val b :=
  ⟨readByte_writeByte_same _ _ _, fun _ hj => readByte_writeByte_ne _ _ hj⟩

theorem keepsDigestState_appended (b : Byte) (o : SeqState) {s : State} (h : s.fill.val < 64) :
    KeepsDigestState s (appended b o s h) :=
  ⟨rfl, rfl, rfl, rfl, rfl, rfl, rfl⟩

theorem exec_pad80 {s : State} (hst : s.st = .pad80) (h : s.fill.val < 64) :
    exec .pad80 s = .next (appended 0x80 .padzero s h) :=
  calc exec .pad80 s = execPad80 s := rfl
    _ = appendByte 0x80 .padzero s := if_pos hst
    _ = .next (appended 0x80 .padzero s h) := appendByte_next h

end Sys2Proof.Machine

namespace Sys2Proof.Proofs

open Sys2Proof.Machine

/-- Settles O25: the next state is the one in which 0x80 is appended. -/
theorem pad80Effect : Obligations.Pad80Effect := by
  intro s hst hfill
  exact ⟨_, exec_pad80 hst hfill, storesByte_appended _ _ hfill, appended_fill, appended_len, appended_padk,
    appended_st, appended_rsp, keepsDigestState_appended _ _ hfill⟩

end Sys2Proof.Proofs
end

section
/-! SUPPORT. The number in the length field, and the ends of a padded message (40_padding.md R100, R103). -/

namespace Sys2Proof.Machine

/-- The `n` low bytes of a number, low byte first, stand for the number modulo `256 ^ n`. -/
theorem littleEndian_lowBytes (n v : Nat) :
    littleEndian ((List.range n).map fun k => BitVec.ofNat 8 (v >>> (8 * k))) = v % 256 ^ n := by
  induction n generalizing v with
  | zero => simp [littleEndian, Nat.mod_one]
  | succ n ih =>
    have shift : ∀ k, v >>> (8 * (k + 1)) = (v / 256) >>> (8 * k) := by
      intro k
      rw [Nat.mul_succ, Nat.add_comm, Nat.shiftRight_add, Nat.shiftRight_eq_div_pow v]
    rw [List.range_succ_eq_map, List.map_cons, List.map_map]
    simp only [littleEndian, Function.comp_def, Nat.succ_eq_add_one, shift, ih, Nat.mul_zero, Nat.shiftRight_zero,
      BitVec.toNat_ofNat, Nat.reducePow]
    rw [Nat.pow_succ', Nat.mod_mul]

/-- Eight bytes hold `8 * L`: it is below `2 ^ 64`. -/
theorem littleEndian_lenField {len : Nat} (h : len ≤ Config.maxLength) : littleEndian (lenField len) = 8 * len := by
  have hlt : 8 * len < 256 ^ 8 := by unfold Config.maxLength at h; omega
  calc littleEndian (lenField len)
      = littleEndian ((List.range 8).map (lengthByte len)) := by rw [lenField_short h]
    _ = 8 * len % 256 ^ 8 := littleEndian_lowBytes 8 (8 * len)
    _ = 8 * len := Nat.mod_eq_of_lt hlt

theorem drop_pad (m : List Byte) : (pad m).drop ((pad m).length - 8) = lenField m.length :=
  List.drop_left' (by simp only [pad, List.length_append, length_lenField, Nat.add_sub_cancel])

theorem take_pad (m : List Byte) : (pad m).take m.length = m := by
  simp [pad]

end Sys2Proof.Machine

namespace Sys2Proof.Proofs

open Sys2Proof.Machine

/-- Settles O50: the last eight bytes are the length field, whose number is `8 * L`, and the padding begins with `m`. -/
theorem paddingIsRecoverable : Obligations.PaddingIsRecoverable := by
  intro m hm
  have bits : littleEndian ((pad m).drop ((pad m).length - 8)) = 8 * m.length := by
    rw [drop_pad, littleEndian_lenField hm]
  refine ⟨bits, ?_⟩
  rw [bits, Nat.mul_div_cancel_left _ (by decide), take_pad]

end Sys2Proof.Proofs
end

section
/-! SUPPORT. One block in the engine: CLOAD, 64 rounds and CADD are `Compress` (41_sequencer.md R128). -/

namespace Sys2Proof.Machine

theorem exec_cload {s : State} (hst : s.st = .cload) (hf : s.fill.val = 64) :
    exec .cload s = .next { s with w := s.h, rnd := 0, st := .round } :=
  calc exec .cload s = execCload s := rfl
    _ = _ := by rw [execCload, if_pos hst, if_pos hf]

theorem exec_cadd {s : State} (hst : s.st = .cadd) :
    exec .cadd s = .next { s with h := s.h.add s.w, fill := 0, st := afterBlock s } :=
  if_pos hst

theorem enabledMicro_cload {s : State} (hst : s.st = .cload) : enabledMicro s = .cload := by
  rw [enabledMicro, hst]

theorem enabledMicro_round {s : State} (hst : s.st = .round) : enabledMicro s = roundOfPhase (phaseOf s.rnd) := by
  rw [enabledMicro, hst]

theorem enabledMicro_cadd {s : State} (hst : s.st = .cadd) : enabledMicro s = .cadd := by
  rw [enabledMicro, hst]

theorem compressing_busy {s : State} (h : compressing s.st = true) : s.ready = false := by
  unfold State.ready
  cases hst : s.st <;> simp_all [compressing, readyState]

/-- What follows a block, by `FIN` and `PADK` (43_accumulator_serializer.md R181). -/
theorem afterBlock_eq (s : State) :
    afterBlock s = if s.fin = false then .absorb else if s.padk.val = 8 then .done else .padzero := by
  cases hf : s.fin <;> simp [afterBlock, hf]

/-- Where the engine stands after CLOAD and `i` rounds on `block`, `i` up to 64, when CLOAD began in `s`: before round
`i`, or in CADD when all 64 are done (42_round_datapath.md R160, R165). -/
def roundsDone (block : List Byte) (i : Nat) (s : State) : State :=
  { s with
    w := compressRounds block i s.h
    rnd := BitVec.ofNat 6 (min i 63)
    st := if i < 64 then .round else .cadd }

/-! The fields, for every `i`: at `i = 64` a proof cites these, where unfolding would evaluate the rounds. -/

section
variable {block : List Byte} {i : Nat} {s : State}
@[simp] theorem roundsDone_h : (roundsDone block i s).h = s.h := rfl
@[simp] theorem roundsDone_buf : (roundsDone block i s).buf = s.buf := rfl
@[simp] theorem roundsDone_host : (roundsDone block i s).host = s.host := rfl

theorem roundsDone_rnd_toNat (hi : i < 64) : (roundsDone block i s).rnd.toNat = i := by
  simp only [roundsDone, BitVec.toNat_ofNat]
  omega

theorem roundsDone_st_round (hi : i < 64) : (roundsDone block i s).st = .round :=
  if_pos hi

theorem roundsDone_st_cadd (hi : ¬ i < 64) : (roundsDone block i s).st = .cadd :=
  if_neg hi
end

/-- Where the engine stands after CADD (43_accumulator_serializer.md R181). -/
def blockDone (block : List Byte) (s : State) : State :=
  { s with
    h := compress s.h block
    w := compressRounds block 64 s.h
    fill := 0
    rnd := 63
    st := if s.fin = false then .absorb else if s.padk.val = 8 then .done else .padzero }

/-- ROUND on the local state is the round of `Compress`. -/
theorem rounded_roundsDone {block : List Byte} {i : Nat} {s : State} (hi : i < 64) :
    rounded (blockWord block (schedOf i)) (roundsDone block i s) = roundsDone block (i + 1) s := by
  have hrnd : min i 63 = i := by omega
  have hnext : (if i < 63 then BitVec.ofNat 6 i + 1 else BitVec.ofNat 6 i) = BitVec.ofNat 6 (min (i + 1) 63) := by
    split
    · rw [Nat.min_eq_left (by omega), BitVec.ofNat_add]; rfl
    · rw [Nat.min_eq_right (by omega), show i = 63 by omega]
  have hst : (if i = 63 then SeqState.cadd else .round) = if i + 1 < 64 then .round else .cadd := by
    split
    · rw [if_neg (by omega)]
    · rw [if_pos (by omega)]
  simp only [rounded, roundsDone_rnd_toNat hi]
  simp only [roundsDone, hrnd, hnext, hst, compressRounds, compressRound, roundWords]

section
variable {s : State} {block : List Byte}

/-- A step with a full block in the buffer is the micro-operation of the state (30_encoding.md R84). -/
theorem step_compressing (hc : compressing s.st = true) (hh : resetAsserted s.host = false)
    (hw : waiting s.host = s.host) : step s = exec (enabledMicro s) s :=
  step_busy_waiting hh hw (compressing_busy hc)

/-- The step from CLOAD with a full block: no round is done yet. -/
theorem step_cload (hst : s.st = .cload) (hf : s.fill.val = 64) (hh : resetAsserted s.host = false)
    (hw : waiting s.host = s.host) : step s = .next (roundsDone block 0 s) := by
  rw [step_compressing (by rw [hst]; rfl) hh hw, enabledMicro_cload hst, exec_cload hst hf]
  rfl

/-- A step in ROUND is the round of `Compress`. -/
theorem step_roundsDone (hb : HoldsBlock s.buf block) (hh : resetAsserted s.host = false)
    (hw : waiting s.host = s.host) {i : Nat} (hi : i < 64) :
    step (roundsDone block i s) = .next (roundsDone block (i + 1) s) := by
  have hst : (roundsDone block i s).st = .round := roundsDone_st_round hi
  rw [step_compressing (by rw [hst]; rfl) (by rwa [roundsDone_host]) (by rwa [roundsDone_host]), enabledMicro_round hst,
    exec_round hst, roundsDone_rnd_toNat hi, roundsDone_buf, messageWord_of_holds hb (schedOf_lt i)]
  exact congrArg _ (rounded_roundsDone hi)

/-- The last step of a block. -/
theorem step_cadd (hst : s.st = .cadd) (hh : resetAsserted s.host = false) (hw : waiting s.host = s.host) :
    step s = .next { s with h := s.h.add s.w, fill := 0, st := afterBlock s } := by
  rw [step_compressing (by rw [hst]; rfl) hh hw, enabledMicro_cadd hst, exec_cadd hst]

/-- After 64 rounds CADD completes `Compress`. -/
theorem step_roundsDone_last (hh : resetAsserted s.host = false) (hw : waiting s.host = s.host) :
    step (roundsDone block 64 s) = .next (blockDone block s) := by
  have hrnd : BitVec.ofNat 6 (min 64 63) = 63 := rfl
  rw [step_cadd (roundsDone_st_cadd (by decide)) (by rwa [roundsDone_host]) (by rwa [roundsDone_host]), afterBlock_eq]
  simp only [roundsDone, blockDone, compress, hrnd]

/-- CLOAD and `i` rounds, by induction over the rounds. -/
theorem runSteps_roundsDone (hst : s.st = .cload) (hf : s.fill.val = 64) (hb : HoldsBlock s.buf block)
    (hh : resetAsserted s.host = false) (hw : waiting s.host = s.host) {i : Nat} (hi : i ≤ 64) :
    runSteps (1 + i) s = .next (roundsDone block i s) := by
  induction i with
  | zero => exact runSteps_one (step_cload hst hf hh hw)
  | succ i ih => exact runSteps_succ (ih (by omega)) (step_roundsDone hb hh hw hi)

end

end Sys2Proof.Machine

namespace Sys2Proof.Proofs

open Sys2Proof.Machine

/-- Settles O51: by induction over the rounds the engine is at `roundsDone`, and CADD follows the 64th. -/
theorem blockIsCompressed : Obligations.BlockIsCompressed := by
  intro s block hst hf hb hh hw
  have hrun : ∀ i, i ≤ 64 → runSteps (1 + i) s = .next (roundsDone block i s) :=
    fun i hi => runSteps_roundsDone hst hf hb hh hw hi
  exact ⟨fun i hi => ⟨_, hrun i (Nat.le_of_lt hi), roundsDone_st_round hi, roundsDone_rnd_toNat hi, roundsDone_h⟩,
    ⟨_, hrun 64 (Nat.le_refl _), roundsDone_st_cadd (by decide), roundsDone_h⟩,
    runSteps_succ (hrun 64 (Nat.le_refl _)) (step_roundsDone_last hh hw)⟩

end Sys2Proof.Proofs
end

section
/-! SUPPORT. The effect of PUSH in ABSORB and its encoding (41_sequencer.md R123; 30_encoding.md R74). -/

namespace Sys2Proof

/-- The word of PUSH as a sum: the operand field does not reach the opcode. -/
theorem pushWord_eq_commandWord (b : Byte) : (0x2000 : CommandWord) + b.setWidth 16 = commandWord 2 b := by
  apply BitVec.eq_of_toNat_eq
  simp only [commandWord, Machine.toNat_append_eq_add, BitVec.toNat_add, BitVec.toNat_setWidth]
  have hop : (0x2000 : CommandWord).toNat = 0x2000 ∧ (2 : BitVec 4).toNat = 2 ∧ (0 : BitVec 4).toNat = 0 := by decide
  omega

theorem decodeCommand_pushWord (b : Byte) : decodeCommand (0x2000 + b.setWidth 16) = .ok (.push b) := by
  rw [pushWord_eq_commandWord]
  simp [decodeCommand]

namespace Machine

/-- What PUSH does beside the append: the byte is counted and the command answered (41_sequencer.md R123). -/
def pushCounted (s : State) : State := respondDone { s with len := s.len + 1 }

theorem exec_push_absorb {s : State} (hst : s.st = .absorb) (b : Byte) :
    exec (.push b) s = if s.len.toNat = Config.maxLength then .next (raiseCommand .lengthOverflow s)
      else appendByte b .absorb (pushCounted s) :=
  calc exec (.push b) s = execPush b s := rfl
    _ = _ := by rw [execPush, accepted_ready ((ready_iff s).2 (.inr (.inl hst))), legalIn_legal hst]; rfl

theorem exec_push_overflow {s : State} (hst : s.st = .absorb) (hl : s.len.toNat = Config.maxLength) (b : Byte) :
    exec (.push b) s = .next (raiseCommand .lengthOverflow s) := by
  rw [exec_push_absorb hst, if_pos hl]

theorem exec_push_appends {s : State} (hst : s.st = .absorb) (hl : s.len.toNat < Config.maxLength)
    (hf : s.fill.val < 64) (b : Byte) :
    exec (.push b) s = .next (appended b .absorb (pushCounted s) hf) := by
  rw [exec_push_absorb hst, if_neg (Nat.ne_of_lt hl)]
  exact appendByte_next (s := pushCounted s) hf

/-- Below the limit `LEN` does not wrap (40_padding.md R108). -/
theorem pushCounted_len {s : State} (hl : s.len.toNat < Config.maxLength) :
    (pushCounted s).len.toNat = s.len.toNat + 1 :=
  BitVec.toNat_add_of_lt (show s.len.toNat + 1 < 2 ^ 61 by unfold Config.maxLength at hl; omega)

end Machine

end Sys2Proof

namespace Sys2Proof.Proofs

open Sys2Proof.Machine

/-- Settles O20: SEQUENCE_ERROR, LENGTH_OVERFLOW, or the state with the byte appended and `LEN` one more. -/
theorem pushEffect : Obligations.PushEffect := by
  refine ⟨decodeCommand_pushWord, fun b s hr => ⟨fun hst => ?_, fun hst hl => ?_, fun hst hl hf => ?_⟩⟩
  · exact exec_push_outside_absorb hr hst b
  · exact exec_push_overflow hst hl b
  · exact ⟨_, exec_push_appends hst hl hf b, storesByte_appended b .absorb (s := pushCounted s) hf, appended_fill,
      pushCounted_len hl, appended_padk, appended_st, appended_rsp,
      keepsDigestState_appended b .absorb (s := pushCounted s) hf⟩

end Sys2Proof.Proofs
end

section
/-! SUPPORT. NOP and INIT in a ready state (41_sequencer.md R121, R122). -/

namespace Sys2Proof.Machine

theorem exec_nop {s : State} (hr : s.ready = true) : exec .nop s = .next (respondDone s) := accepted_ready hr

theorem exec_init {s : State} (hr : s.ready = true) : exec .init s = .next (initialised s) := accepted_ready hr

end Sys2Proof.Machine

namespace Sys2Proof.Proofs

open Sys2Proof.Machine

/-- Settles O18: NOP is accepted in a ready state and only responds. -/
theorem nopEffect : Obligations.NopEffect := ⟨rfl, fun _ hr => exec_nop hr⟩

/-- Settles O19: INIT is accepted in a ready state and leaves the state `initialised`. -/
theorem initEffect : Obligations.InitEffect := ⟨rfl, fun _ hr => exec_init hr⟩

end Sys2Proof.Proofs
end

section
/-! SUPPORT. The shift amounts of a phase, and the next state of its ROUND variant written out (42_round_datapath.md
R159 to R164). -/

namespace Sys2Proof.Machine

/-- Every entry of table `S` is one of the four amounts of its phase. -/
theorem sTable_mem_sPhase (r : BitVec 6) : sTable r ∈ sPhase (phaseOf r) := by
  have four : ∀ p : BitVec 2, (sPhase p).length = 4 := by decide
  have hpos : r.toNat % 4 < (sPhase (phaseOf r)).length := by rw [four]; omega
  rw [sTable, ← List.getElem_eq_getD (h := hpos)]
  exact List.getElem_mem hpos

/-- The amounts of all phases lie from 4 to 23. -/
theorem sPhase_bounds (p : BitVec 2) : ∀ a ∈ sPhase p, 4 ≤ a.toNat ∧ a.toNat ≤ 23 := by
  revert p; decide

/-- In the rounds of phase 0 the schedule is the round number itself. -/
theorem sched0_eq_self {r : BitVec 6} (h : phaseOf r = 0) : sched0 r.toNat = r.toNat := by
  have hp : r.toNat / 16 = 0 := (phaseOf_eq_iff r 0).1 h
  unfold sched0
  omega

/-- ROUND's rule for the variant of phase `p`, from the mixing function and the schedule of the phase's rounds. -/
theorem roundEffect_of_phase (p : BitVec 2) {mix : Word → Word → Word → Word} {g : Nat → Nat}
    (hmix : ∀ {s : State}, phaseOf s.rnd = p → mixOf s.rnd.toNat = mix)
    (hg : ∀ {s : State}, phaseOf s.rnd = p → schedOf s.rnd.toNat = g s.rnd.toNat) :
    RoundEffect (roundOfPhase p) p.toNat mix g ((sPhase p).map BitVec.toNat) := by
  intro s m hst hp hm
  obtain rfl := (phaseOf_eq_iff s.rnd p).2 hp
  refine ⟨List.mem_map_of_mem (sTable_mem_sPhase s.rnd), ?_⟩
  rw [exec_round hst, hg rfl, hm, ← hmix rfl]
  rfl

end Sys2Proof.Machine

namespace Sys2Proof.Proofs

open Sys2Proof.Machine

/-- Settles O30: the one rule for a phase, with the mixing function and schedule of each. -/
theorem roundEffects : Obligations.RoundEffects :=
  ⟨roundEffect_of_phase 0 mixOf_p0 fun h => (schedOf_p0 h).trans (sched0_eq_self h),
    roundEffect_of_phase 1 mixOf_p1 schedOf_p1, roundEffect_of_phase 2 mixOf_p2 schedOf_p2,
    roundEffect_of_phase 3 mixOf_p3 schedOf_p3⟩

end Sys2Proof.Proofs
end

section
/-! SUPPORT. The rotation: the two shifted words share no bit, so that their sum is the library's rotation
(42_round_datapath.md R151). -/

namespace Sys2Proof.Machine

/-- A word shifted up by `n` and the same word shifted down by `32 - n` have no bit in common. -/
theorem shiftLeft_and_ushiftRight_eq_zero (x : Word) (n : Nat) : (x <<< n) &&& (x >>> (32 - n)) = 0#32 := by
  apply BitVec.eq_of_getLsbD_eq
  intro i hi
  rw [BitVec.getLsbD_and, BitVec.getLsbD_shiftLeft, BitVec.getLsbD_ushiftRight, BitVec.getLsbD_zero]
  by_cases hlow : i < n
  · simp [hlow]
  · rw [BitVec.getLsbD_of_ge x (32 - n + i) (by omega), Bool.and_false]

theorem rotl_of_ne_zero {s : BitVec 5} (hs : s ≠ 0) (x : Word) :
    rotl x s = (x <<< s.toNat) + (x >>> (32 - s.toNat)) := if_neg hs

theorem rotl_zero (x : Word) : rotl x 0 = x := if_pos rfl

/-- The formula of R151 on numbers: the sum of the two parts does not wrap. -/
theorem toNat_rotl {s : BitVec 5} (hs : s ≠ 0) (x : Word) :
    (rotl x s).toNat = x.toNat * 2 ^ s.toNat % 2 ^ 32 + x.toNat / 2 ^ (32 - s.toNat) := by
  rw [rotl_of_ne_zero hs, BitVec.toNat_add_of_and_eq_zero (shiftLeft_and_ushiftRight_eq_zero x s.toNat),
    BitVec.toNat_shiftLeft, BitVec.toNat_ushiftRight, Nat.shiftLeft_eq, Nat.shiftRight_eq_div_pow]

theorem rotl_eq_rotateLeft (x : Word) (s : BitVec 5) : rotl x s = x.rotateLeft s.toNat := by
  have hlt : s.toNat < 32 := s.isLt
  by_cases hs : s = 0
  · subst hs
    rw [rotl_zero, BitVec.rotateLeft_def]
    simp [BitVec.ushiftRight_eq_zero]
  · rw [rotl_of_ne_zero hs, BitVec.add_eq_or_of_and_eq_zero _ _ (shiftLeft_and_ushiftRight_eq_zero x s.toNat),
      BitVec.rotateLeft_def, Nat.mod_eq_of_lt hlt]

/-- Bit `i` goes to `i + s`, or comes round to `i + s - 32`. -/
theorem getLsbD_rotl (x : Word) (s : BitVec 5) {i : Nat} (hi : i < 32) :
    (rotl x s).getLsbD ((i + s.toNat) % 32) = x.getLsbD i := by
  have hs : s.toNat < 32 := s.isLt
  rw [rotl_eq_rotateLeft, BitVec.getLsbD_rotateLeft_of_le hs]
  by_cases hround : i + s.toNat < 32
  · rw [Nat.mod_eq_of_lt hround, Nat.add_sub_cancel]
    simp [hround]
  · have hdest : (i + s.toNat) % 32 = i + s.toNat - 32 := by omega
    have hsrc : 32 - s.toNat + (i + s.toNat - 32) = i := by omega
    rw [hdest, hsrc, decide_eq_true (show i + s.toNat - 32 < s.toNat by omega), cond_true]

end Sys2Proof.Machine

namespace Sys2Proof.Proofs

open Sys2Proof.Machine

/-- Settles O32: the formula, the identity at 0 and the bits of `rotl`, and the bounds of each phase's amounts. -/
theorem rotationMovesEveryBit : Obligations.RotationMovesEveryBit := by
  refine ⟨fun x s => ⟨fun hs => toNat_rotl hs x, ?_, fun i hi => getLsbD_rotl x s hi⟩, fun i => ?_⟩
  · rintro rfl
    exact rotl_zero x
  · exact sPhase_bounds (phaseOf i) (sTable i) (sTable_mem_sPhase i)

end Sys2Proof.Proofs
end

section
/-! SUPPORT. One bit of each mixing function (42_round_datapath.md R152 to R156). -/

namespace Sys2Proof.Machine

/-- `F0` and `F1` have one form: the bit of `x` selects between those of `y` and `z`. -/
theorem getLsbD_select (x y z : Word) {i : Nat} (hi : i < 32) :
    ((x &&& y) ||| (~~~x &&& z)).getLsbD i = if x.getLsbD i then y.getLsbD i else z.getLsbD i := by
  rw [BitVec.getLsbD_or, BitVec.getLsbD_and, BitVec.getLsbD_and, BitVec.getLsbD_not, decide_eq_true hi]
  cases x.getLsbD i <;> simp

theorem getLsbD_mix2 (b c d : Word) (i : Nat) :
    (mix2 b c d).getLsbD i = (b.getLsbD i ^^ c.getLsbD i ^^ d.getLsbD i) := by
  rw [mix2, BitVec.getLsbD_xor, BitVec.getLsbD_xor]

theorem getLsbD_mix3 (b c d : Word) {i : Nat} (hi : i < 32) :
    (mix3 b c d).getLsbD i = (c.getLsbD i ^^ (b.getLsbD i || !d.getLsbD i)) := by
  rw [mix3, BitVec.getLsbD_xor, BitVec.getLsbD_or, BitVec.getLsbD_not, decide_eq_true hi, Bool.true_and]

end Sys2Proof.Machine

namespace Sys2Proof.Proofs

open Sys2Proof.Machine

/-- Settles O31: `F0` selects by `B`, `F1` by `D`, and the other two are read bit by bit. -/
theorem mixingFunctionsBitByBit : Obligations.MixingFunctionsBitByBit := by
  intro b c d i hi
  exact ⟨getLsbD_select b c d hi, getLsbD_select d b c hi, getLsbD_mix2 b c d i, getLsbD_mix3 b c d hi⟩

end Sys2Proof.Proofs
end

section
/-! SUPPORT. RDB and RDH: their words, and a read by index in a ready state (43_accumulator_serializer.md R184, R186). -/

namespace Sys2Proof

/-- A command word as a sum: the operand field does not reach the opcode (30_encoding.md R71). -/
theorem opcode_add_operand (op : BitVec 4) (imm : Byte) :
    commandWord op 0 + imm.setWidth 16 = commandWord op imm := by
  apply BitVec.eq_of_toNat_eq
  simp only [commandWord, Machine.toNat_append_eq_add, BitVec.toNat_add, BitVec.toNat_setWidth, BitVec.ofNat_eq_ofNat,
    BitVec.toNat_ofNat]
  omega

theorem withIndex_legal {imm : Byte} {greatest : Nat} (h : imm.toNat ≤ greatest) (e : DecodeError) (i : Instr) :
    withIndex imm greatest e i = .ok i := if_pos h

theorem decodeCommand_rdbWord {i : Byte} (hi : i.toNat ≤ maxDigestIndex) :
    decodeCommand (0x4000 + i.setWidth 16) = .ok (.rdb i) := by
  have hw : 0x4000 + i.setWidth 16 = commandWord 4 i := opcode_add_operand 4 i
  rw [hw]
  simp [decodeCommand, withIndex_legal hi]

theorem decodeCommand_rdhWord {j : Byte} (hj : j.toNat ≤ maxHexIndex) :
    decodeCommand (0x5000 + j.setWidth 16) = .ok (.rdh j) := by
  have hw : 0x5000 + j.setWidth 16 = commandWord 5 j := opcode_add_operand 5 j
  rw [hw]
  simp [decodeCommand, withIndex_legal hj]

namespace Machine

section
variable {s : State} {i greatest : Nat}

/-- A read by a legal index, asked for in DONE, has its effect. -/
theorem indexedRead_done (hi : i ≤ greatest) (hst : s.st = .done) (effect : Result) :
    accepted s (if i ≤ greatest then legalIn .done s effect else illegalCommand s) = effect := by
  rw [accepted_ready ((ready_iff s).2 (.inr (.inr (.inl hst)))), if_pos hi, legalIn_legal hst]

/-- A read by an index out of range raises ILLEGAL_COMMAND in every ready state (90_conflicts.md C9). -/
theorem indexedRead_over (hr : s.ready = true) (hi : greatest < i) (effect : Result) :
    accepted s (if i ≤ greatest then legalIn .done s effect else illegalCommand s) =
      .next (raiseCommand .illegalCommand s) := by
  rw [accepted_ready hr, if_neg (Nat.not_le.2 hi), illegalCommand]
end

end Machine

end Sys2Proof

namespace Sys2Proof.Proofs

open Sys2Proof.Machine

/-- Settles O22: RDB is a read by an index up to 15. -/
theorem rdbEffect : Obligations.RdbEffect :=
  ⟨fun _ hi => decodeCommand_rdbWord hi, fun _ _ hr => ⟨fun hi hst => indexedRead_done hi hst _,
    fun hi hst => exec_rdb_outside_done hr hst (decide_eq_true hi), fun hi => indexedRead_over hr hi _⟩⟩

/-- Settles O23: RDH is a read by an index up to 31. -/
theorem rdhEffect : Obligations.RdhEffect :=
  ⟨fun _ hj => decodeCommand_rdhWord hj, fun _ _ hr => ⟨fun hj hst => indexedRead_done hj hst _,
    fun hj hst => exec_rdh_outside_done hr hst (decide_eq_true hj), fun hj => indexedRead_over hr hj _⟩⟩

end Sys2Proof.Proofs
end

section
/-! SUPPORT. The fields of STATUS, and RDS in a ready state (10_state.md R31; 43_accumulator_serializer.md R188). -/

namespace Sys2Proof.Machine

theorem status_st (s : State) : s.status.extractLsb' 0 4 = stCode s.st := BitVec.extractLsb'_append_eq_right

theorem status_cause (s : State) : s.status.extractLsb' 4 3 = causeCode s.cause := by
  rw [State.status, BitVec.extractLsb'_append_eq_of_le (by decide)]
  exact BitVec.extractLsb'_append_eq_right

theorem status_fin (s : State) : s.status.getLsbD 7 = s.fin := by
  simp only [State.status, BitVec.getLsbD_append]
  cases s.fin <;> rfl

theorem status_fill (s : State) : s.status.extractLsb' 8 7 = BitVec.ofNat 7 s.fill.val := by
  rw [State.status]
  iterate 3 rw [BitVec.extractLsb'_append_eq_of_le (by decide)]
  exact BitVec.extractLsb'_append_eq_right

/-- Seven bits hold every `FILL`. -/
theorem status_fill_toNat (s : State) : (s.status.extractLsb' 8 7).toNat = s.fill.val := by
  have hfill := s.fill.isLt
  rw [status_fill, BitVec.toNat_ofNat]
  omega

theorem status_top (s : State) : s.status.getLsbD 15 = false := by
  simp only [State.status, BitVec.getLsbD_append]
  rfl

theorem exec_rds {s : State} (hr : s.ready = true) : exec .rds s = .next (respond ⟨false, s.status⟩ s) :=
  accepted_ready hr

end Sys2Proof.Machine

namespace Sys2Proof.Proofs

open Sys2Proof.Machine

/-- Settles O24: STATUS is the concatenation of its fields, and RDS only responds. -/
theorem rdsReturnsStatus : Obligations.RdsReturnsStatus :=
  ⟨rfl, fun s => ⟨status_st s, status_cause s, status_fin s, status_fill_toNat s, status_top s, exec_rds⟩⟩

end Sys2Proof.Proofs
end

section
/-! SUPPORT. CLOAD and CADD: the fault of CLOAD when the block is not full (43_accumulator_serializer.md R180, R181;
60_exceptions.md R205). -/

namespace Sys2Proof.Machine

theorem exec_cload_misaligned {s : State} (hst : s.st = .cload) (hf : s.fill.val ≠ 64) :
    exec .cload s = .next (raise .alignAssert s) :=
  calc exec .cload s = execCload s := rfl
    _ = _ := by rw [execCload, if_pos hst, if_neg hf]

end Sys2Proof.Machine

namespace Sys2Proof.Proofs

open Sys2Proof.Machine

/-- Settles O28: the load of a full block, or fault entry without a response. -/
theorem cloadEffect : Obligations.CloadEffect :=
  fun _ hst => ⟨exec_cload hst, exec_cload_misaligned hst⟩

/-- Settles O29: `Quad.add` is the four separate sums, `afterBlock` the next state. -/
theorem caddEffect : Obligations.CaddEffect := by
  intro s hst
  rw [exec_cadd hst, afterBlock_eq, Quad.add]

end Sys2Proof.Proofs
end

section
/-! SUPPORT. The `DIGEST` and `HEX` views on numbers, and their agreement with `Serialize` and `Hex`
(43_accumulator_serializer.md R183, R185, R187). -/

namespace Sys2Proof.Machine

theorem hashWord_eq (h : Quad) (q : Nat) :
    hashWord h q = if q = 0 then h.a else if q = 1 then h.b else if q = 2 then h.c else h.d := by
  match q with
  | 0 | 1 | 2 | _ + 3 => rfl

theorem toNat_digestByte (h : Quad) (i : Nat) :
    (digestByte h i).toNat = ((hashWord h (i / 4)).toNat / 2 ^ (8 * (i % 4))) % 256 := by
  rw [digestByte, BitVec.toNat_setWidth, BitVec.toNat_ushiftRight, Nat.shiftRight_eq_div_pow]

theorem getElem?_serialize (h : Quad) {i : Nat} (hi : i < 16) : (serialize h)[i]? = some (digestByte h i) := by
  rw [serialize, List.getElem?_map, List.getElem?_range hi, Option.map_some]

theorem length_serialize (h : Quad) : (serialize h).length = 16 := by
  rw [serialize, List.length_map, List.length_range]

/-- The codes of `hexchar` on numbers (43_accumulator_serializer.md R187). -/
theorem toNat_hexCode (n : BitVec 4) :
    (hexCode n).toNat = if n.toNat < 10 then 0x30 + n.toNat else 0x61 + (n.toNat - 10) := by
  revert n; decide

/-- The high four bits of a byte on numbers. -/
theorem highDigit_eq (b : Byte) : b.extractLsb' 4 4 = BitVec.ofNat 4 (b.toNat / 16) := by
  rw [BitVec.extractLsb', Nat.shiftRight_eq_div_pow]

/-- The low four bits of a byte on numbers. -/
theorem lowDigit_eq (b : Byte) : b.extractLsb' 0 4 = BitVec.ofNat 4 (b.toNat % 16) := by
  apply BitVec.eq_of_toNat_eq
  rw [BitVec.extractLsb'_toNat, BitVec.toNat_ofNat, Nat.shiftRight_zero, Nat.mod_mod]

theorem hexChar_even (h : Quad) {j : Nat} (hj : j % 2 = 0) :
    hexChar h j = hexCode ((digestByte h (j / 2)).extractLsb' 4 4) := by
  rw [hexChar, hexDigit, if_pos hj]

theorem hexChar_odd (h : Quad) {j : Nat} (hj : j % 2 = 1) :
    hexChar h j = hexCode ((digestByte h (j / 2)).extractLsb' 0 4) := by
  rw [hexChar, hexDigit, if_neg (by omega)]

/-- The two characters of digest byte `k`, the high four bits first. -/
theorem hexChars_of_byte (h : Quad) (k : Nat) :
    [hexCode ((digestByte h k).extractLsb' 4 4), hexCode ((digestByte h k).extractLsb' 0 4)] =
      [hexChar h (2 * k), hexChar h (2 * k + 1)] := by
  rw [hexChar_even h (by omega), hexChar_odd h (by omega), show 2 * k / 2 = k by omega,
    show (2 * k + 1) / 2 = k by omega]

/-- The values at `2k` and `2k + 1`, for `k` below `n`, are the values below `2n` in order. -/
theorem flatMap_range_pairs {α : Type} (f : Nat → α) (n : Nat) :
    (List.range n).flatMap (fun k => [f (2 * k), f (2 * k + 1)]) = (List.range (2 * n)).map f := by
  induction n with
  | zero => rfl
  | succ n ih => simp [List.range_succ, ih, Nat.mul_succ]

theorem hexOf_serialize (h : Quad) : hexOf (serialize h) = (List.range 32).map (hexChar h) := by
  rw [hexOf, serialize, List.flatMap_map]
  simp only [hexChars_of_byte]
  exact flatMap_range_pairs (hexChar h) 16

end Sys2Proof.Machine

namespace Sys2Proof.Proofs

open Sys2Proof.Machine

/-- Settles O35: entry `i` of `Serialize` is the `DIGEST` view, whose shift is a division on numbers. -/
theorem digestViewIsLittleEndian : Obligations.DigestViewIsLittleEndian := by
  intro h i hi
  rw [← hashWord_eq]
  exact ⟨getElem?_serialize h hi, toNat_digestByte h i⟩

/-- Settles O36: the codes, the two characters of each digest byte, and the bytes in order. -/
theorem hexViewRendersDigest : Obligations.HexViewRendersDigest := by
  refine ⟨toNat_hexCode, fun h j _ => ⟨fun hj => ?_, fun hj => ?_⟩, fun h => ⟨length_serialize h, hexOf_serialize h⟩⟩
  · rw [hexChar_even h hj, highDigit_eq]
  · rw [hexChar_odd h hj, lowDigit_eq]

end Sys2Proof.Proofs
end

section
/-! SUPPORT. What no step into FAULT writes, and accepted words in FAULT (60_exceptions.md R206, R208). -/

namespace Sys2Proof.Machine

/-! ### The frame of a step into FAULT -/

/-- What R206 leaves alone: every element but `CAUSE` and `ST`, and `CAUSE` too when a fault came before. The script and
the responses are not spoken of. -/
def FaultFrame (s t : State) : Prop :=
  t.h = s.h ∧ t.w = s.w ∧ t.buf = s.buf ∧ t.fill = s.fill ∧ t.len = s.len ∧ t.fin = s.fin ∧ t.padk = s.padk ∧
    t.rnd = s.rnd ∧ (s.cause ≠ .none → t.cause = s.cause) ∧ t.resets = s.resets

theorem faultFrame_refl (s : State) : FaultFrame s s :=
  ⟨rfl, rfl, rfl, rfl, rfl, rfl, rfl, rfl, fun _ => rfl, rfl⟩

theorem faultFrame_raise (c : Cause) (s : State) : FaultFrame s (raise c s) :=
  ⟨rfl, rfl, rfl, rfl, rfl, rfl, rfl, rfl, fun hc => if_neg hc, rfl⟩

/-- A response writes nothing of the frame. -/
theorem FaultFrame.respond {s t : State} (h : FaultFrame s t) (r : Response) : FaultFrame s (respond r t) := h

theorem faultFrame_raiseCommand (c : Cause) (s : State) : FaultFrame s (raiseCommand c s) :=
  (faultFrame_raise c s).respond _

/-- The frame does not look at the script. -/
theorem FaultFrame.of_host {s t : State} {l : List HostEvent} (h : FaultFrame { s with host := l } t) :
    FaultFrame s t := h

theorem rounded_st_ne_fault (m : Word) (s : State) : (rounded m s).st ≠ .fault := by
  rw [rounded_st]
  split <;> nofun

theorem afterBlock_ne_fault (s : State) : afterBlock s ≠ .fault := by
  rw [afterBlock_eq]
  split
  · nofun
  · split <;> nofun

/-- An instruction that leaves the engine in FAULT enters it by fault entry or was answered there: each of the others
leads to another state. -/
theorem exec_faultFrame {i : Instr} {s t : State} (hx : ExecNext i s t) (ht : t.st = .fault) : FaultFrame s t := by
  cases hx with
  | waits => exact faultFrame_refl s
  | nop | rds | rdb | rdh => exact (faultFrame_refl s).respond _
  | raises => exact faultFrame_raiseCommand _ s
  | cloadAssert => exact faultFrame_raise _ s
  | init | final | padzeroEnd | cload => exact absurd ht nofun
  | push | pad80 | padzero | padlen => exact absurd ht (appended_st_ne_fault nofun)
  | round => exact absurd ht (rounded_st_ne_fault _ s)
  | cadd => exact absurd ht (afterBlock_ne_fault s)

/-- The same of a step: the reset event leads to IDLE, and the other agents use the script beside. -/
theorem step_faultFrame {s t : State} (hx : StepNext s t) (ht : t.st = .fault) : FaultFrame s t := by
  cases hx with
  | reset => exact absurd ht nofun
  | rests => exact faultFrame_refl s
  | illegal => exact faultFrame_raiseCommand _ s
  | command _ _ _ _ hx => exact (exec_faultFrame hx ht).of_host
  | micro _ _ hx => exact (exec_faultFrame hx ht).of_host

/-! ### Accepted words in FAULT -/

section
variable {s : State}

theorem fault_ready (hst : s.st = .fault) : s.ready = true := (ready_iff s).2 (.inr (.inr (.inr hst)))

/-- In FAULT with a cause fault entry writes nothing; what is left of a command's fault is its response. -/
theorem raiseCommand_in_fault (hst : s.st = .fault) (hcause : s.cause ≠ .none) (c : Cause) :
    raiseCommand c s = { s with rsp := s.rsp ++ [⟨true, 0x0000⟩] } :=
  calc raiseCommand c s
      = { s with cause := if s.cause = .none then c else s.cause, st := .fault, rsp := s.rsp ++ [⟨true, 0x0000⟩] } := rfl
    _ = { s with rsp := s.rsp ++ [⟨true, 0x0000⟩] } := by rw [if_neg hcause, ← hst]

/-- Outside DONE a read by an index raises a fault, whatever the index is (90_conflicts.md C9). -/
theorem indexedRead_raises (hr : s.ready = true) (hst : s.st ≠ .done) (i greatest : Nat) (effect : Result) :
    ∃ c, accepted s (if i ≤ greatest then legalIn .done s effect else illegalCommand s) = .next (raiseCommand c s) := by
  by_cases hi : i ≤ greatest
  · rw [if_pos hi]
    exact ⟨_, accepted_legalIn_other hr hst effect⟩
  · exact ⟨_, indexedRead_over hr (Nat.lt_of_not_le hi) effect⟩

/-- In FAULT every command but NOP, RDS and INIT faults again. -/
theorem exec_in_fault_raises {i : Instr} (hst : s.st = .fault) (hc : i.isCommand = true)
    (hi : ¬ (i = .nop ∨ i = .rds ∨ i = .init)) : ∃ c, exec i s = .next (raiseCommand c s) := by
  have hr := fault_ready hst
  have habsorb : s.st ≠ .absorb := by rw [hst]; nofun
  have hdone : s.st ≠ .done := by rw [hst]; nofun
  cases i with
  | nop | rds | init => simp at hi
  | push b => exact ⟨_, exec_push_outside_absorb hr habsorb b⟩
  | final => exact ⟨_, exec_final_outside_absorb hr habsorb⟩
  | rdb k => exact indexedRead_raises hr hdone k.toNat maxDigestIndex _
  | rdh k => exact indexedRead_raises hr hdone k.toNat maxHexIndex _
  | pad80 | padzero | padlen | cload | roundP0 | roundP1 | roundP2 | roundP3 | cadd => cases hc

/-- The same of a word: an illegal word faults again too. -/
theorem acceptWord_in_fault_raises {w : CommandWord} (hst : s.st = .fault)
    (hw : ¬ (decodeCommand w = .ok .nop ∨ decodeCommand w = .ok .rds ∨ decodeCommand w = .ok .init)) :
    ∃ c, acceptWord w s = .next (raiseCommand c s) := by
  cases hd : decodeCommand w with
  | error e => exact ⟨_, acceptWord_error (fault_ready hst) hd⟩
  | ok i =>
    rw [acceptWord_ok hd]
    exact exec_in_fault_raises hst (decodeCommand_isCommand hd) (by simpa [hd] using hw)

end

end Sys2Proof.Machine

namespace Sys2Proof.Proofs

open Sys2Proof.Machine

/-- Settles O38: fault entry as it is defined, and the frame of every step that ends in FAULT. -/
theorem faultEntryWritesCauseAndStateOnly : Obligations.FaultEntryWritesCauseAndStateOnly :=
  ⟨fun _ _ => ⟨rfl, rfl, rfl, rfl⟩, fun _ _ h ht => step_faultFrame (step_next h) ht⟩

/-- Settles O41: NOP, RDS and INIT as in every ready state; fault entry of every other word leaves FAULT and its cause. -/
theorem onlyInitLeavesFault : Obligations.OnlyInitLeavesFault := by
  intro s w hst hcause
  have hr := fault_ready hst
  refine ⟨fun hd => ?_, fun hd => ?_, fun hd => ⟨initialised s, ?_, rfl, rfl⟩, fun hnop hrds hinit => ?_⟩
  · rw [acceptWord_ok hd, exec_nop hr]; rfl
  · rw [acceptWord_ok hd, exec_rds hr]; rfl
  · rw [acceptWord_ok hd, exec_init hr]
  · obtain ⟨c, hc⟩ := acceptWord_in_fault_raises hst (not_or.2 ⟨hnop, not_or.2 ⟨hrds, hinit⟩⟩)
    rw [hc, raiseCommand_in_fault hst hcause]

end Sys2Proof.Proofs
end

section
/-! SUPPORT. A ready engine with nothing presented (30_encoding.md R72). -/

namespace Sys2Proof.Machine

/-- With an empty script a ready engine waits: a step leaves the whole state as it is. -/
theorem step_ready_empty_script {s : State} (hr : s.ready = true) (hl : s.host = []) : step s = .next s := by
  have hrest : resetAsserted s.host = false := by rw [hl]; rfl
  have hnone : presented s.host = none := by rw [hl]; rfl
  rw [step_ready hrest hr, hostTurn_rests hrest hnone, hl, List.tail_nil, ← hl]

end Sys2Proof.Machine

namespace Sys2Proof.Proofs

open Sys2Proof.Machine

/-- Settles O1: the outputs are fixed by `ST = IDLE`, and a ready engine with an empty script waits. -/
theorem resetLeavesIdle : Obligations.ResetLeavesIdle :=
  ⟨rfl, rfl, rfl, rfl, rfl, step_ready_empty_script rfl rfl⟩

end Sys2Proof.Proofs
end

section
/-! SUPPORT. Encoding and decoding of commands are inverse to each other (30_encoding.md R71, R74, R75, R80). -/

namespace Sys2Proof

/-- A word is the command word of two fields exactly when these are its fields and `RSV` is 0. -/
theorem commandWord_eq_iff (op : BitVec 4) (imm : Byte) (w : CommandWord) :
    commandWord op imm = w ↔ opField w = op ∧ rsvField w = 0 ∧ immField w = imm := by
  constructor
  · rintro rfl
    exact ⟨opField_commandWord _ _, rsvField_commandWord _ _, immField_commandWord _ _⟩
  · rintro ⟨rfl, hr, rfl⟩
    exact commandWord_fields w hr

theorem withoutOperand_ok_iff {imm : Byte} {i j : Instr} : withoutOperand imm i = .ok j ↔ imm = 0 ∧ i = j := by
  unfold withoutOperand
  split <;> simp_all

theorem withIndex_ok_iff {imm : Byte} {greatest : Nat} {e : DecodeError} {i j : Instr} :
    withIndex imm greatest e i = .ok j ↔ imm.toNat ≤ greatest ∧ i = j := by
  unfold withIndex
  split <;> simp_all

/-- Decoding the encoding of a well-formed instruction gives it back: a command by its fields, a micro-operation by the
two fields of its control word. -/
theorem decode_encode {i : Instr} (h : i.wf = true) : decode (encode i) = .ok i := by
  cases i with
  | nop | init | final | rds => rfl
  | push b => simp [decode, encode, decodeCommand]
  | rdb k => simpa [decode, encode, decodeCommand, withIndex_ok_iff] using of_decide_eq_true h
  | rdh k => simpa [decode, encode, decodeCommand, withIndex_ok_iff] using of_decide_eq_true h
  | pad80 | padzero | padlen | cload | roundP0 | roundP1 | roundP2 | roundP3 | cadd => rfl

/-- A word that decodes is the encoding of the well-formed command it decodes to: case by case of `OP`. -/
theorem encode_of_decodeCommand {w : CommandWord} {i : Instr} (h : decodeCommand w = .ok i) :
    i.wf = true ∧ encode i = .command w := by
  by_cases hr : rsvField w = 0
  · have fields : ∀ {op : BitVec 4} {imm : Byte}, opField w = op → immField w = imm → commandWord op imm = w :=
      fun ho hi => (commandWord_eq_iff _ _ _).2 ⟨ho, hr, hi⟩
    unfold decodeCommand at h
    rw [if_neg (not_not.2 hr)] at h
    obtain ho | ho | ho | ho | ho | ho | ho | ho := opField_cases w
    · obtain ⟨hi, rfl⟩ := withoutOperand_ok_iff.1 (by simpa [ho] using h)
      exact ⟨rfl, congrArg _ (fields ho hi)⟩
    · obtain ⟨hi, rfl⟩ := withoutOperand_ok_iff.1 (by simpa [ho] using h)
      exact ⟨rfl, congrArg _ (fields ho hi)⟩
    · obtain rfl : Instr.push (immField w) = i := by simpa [ho] using h
      exact ⟨rfl, congrArg _ (fields ho rfl)⟩
    · obtain ⟨hi, rfl⟩ := withoutOperand_ok_iff.1 (by simpa [ho] using h)
      exact ⟨rfl, congrArg _ (fields ho hi)⟩
    · obtain ⟨hi, rfl⟩ := withIndex_ok_iff.1 (by simpa [ho] using h)
      exact ⟨decide_eq_true hi, congrArg _ (fields ho rfl)⟩
    · obtain ⟨hi, rfl⟩ := withIndex_ok_iff.1 (by simpa [ho] using h)
      exact ⟨decide_eq_true hi, congrArg _ (fields ho rfl)⟩
    · obtain ⟨hi, rfl⟩ := withoutOperand_ok_iff.1 (by simpa [ho] using h)
      exact ⟨rfl, congrArg _ (fields ho hi)⟩
    · split at h <;> first | omega | cases h
  · rw [decodeCommand, if_pos hr] at h
    cases h

theorem wf_of_decodeCommand {w : CommandWord} {i : Instr} (h : decodeCommand w = .ok i) : i.wf = true :=
  (encode_of_decodeCommand h).1

/-- The decoder of command words is the inverse of the encoder on well-formed commands. -/
theorem decodeCommand_ok_iff {w : CommandWord} {i : Instr} :
    decodeCommand w = .ok i ↔ i.wf = true ∧ encode i = .command w := by
  refine ⟨encode_of_decodeCommand, fun ⟨hwf, he⟩ => ?_⟩
  have h := decode_encode hwf
  rwa [he] at h

/-- The decoder by the fields of a word, for a command of opcode `op` and operand `imm`. -/
theorem decodeCommand_ok_iff_fields {w : CommandWord} {i : Instr} {op : BitVec 4} {imm : Byte}
    (he : encode i = .command (commandWord op imm)) :
    decodeCommand w = .ok i ↔ opField w = op ∧ rsvField w = 0 ∧ immField w = imm ∧ i.wf = true := by
  rw [decodeCommand_ok_iff, he, Encoding.command.injEq, commandWord_eq_iff]
  tauto

/-- A row of 30_encoding.md R74 of a command without operand. -/
theorem decodeCommand_ok_iff_mask_FFFF {w : CommandWord} {i : Instr} {op : BitVec 4}
    (he : encode i = .command (commandWord op 0)) (hwf : i.wf = true) :
    decodeCommand w = .ok i ↔ w &&& 0xFFFF = (op ++ 0#4) ++ 0#8 := by
  rw [decodeCommand_ok_iff_fields he, and_mask_FFFF_iff, hwf, eq_self, and_true]

/-- The same of a family of commands with an operand: the operand is the field `IMM`. -/
theorem decodeCommand_ok_iff_operand {w : CommandWord} {f : Byte → Instr} {op : BitVec 4}
    (he : ∀ b, encode (f b) = .command (commandWord op b)) (b : Byte) :
    decodeCommand w = .ok (f b) ↔
      (opField w = op ∧ rsvField w = 0 ∧ (f (immField w)).wf = true) ∧ b = immField w := by
  rw [decodeCommand_ok_iff_fields (he b)]
  constructor
  · rintro ⟨ho, hr, rfl, hwf⟩
    exact ⟨⟨ho, hr, hwf⟩, rfl⟩
  · rintro ⟨⟨ho, hr, hwf⟩, rfl⟩
    exact ⟨ho, hr, rfl, hwf⟩

end Sys2Proof

namespace Sys2Proof.Proofs

open Sys2Proof.Machine

/-- Settles O8: the encoder writes the fields that the decoder reads. -/
theorem decodeOfEncode : Obligations.DecodeOfEncode := fun _ h => decode_encode h

/-- Settles O9: each opcode's command carries the fields of the word. -/
theorem encodeOfDecodedCommand : Obligations.EncodeOfDecodedCommand := fun _ _ h => encode_of_decodeCommand h

/-- Settles O10: each row's mask keeps the fields that the decoder reads; the index masks keep the index's range. -/
theorem commandPatterns : Obligations.CommandPatterns := by
  intro w
  refine ⟨decodeCommand_ok_iff_mask_FFFF (op := 0) rfl rfl, decodeCommand_ok_iff_mask_FFFF (op := 1) rfl rfl,
    fun b => ?_, decodeCommand_ok_iff_mask_FFFF (op := 3) rfl rfl, fun i => ?_, fun j => ?_,
    decodeCommand_ok_iff_mask_FFFF (op := 6) rfl rfl⟩
  · rw [and_mask_FF00_iff]
    simpa [immField, Instr.wf] using decodeCommand_ok_iff_operand (f := .push) (op := 2) (fun _ => rfl) b
  · rw [and_mask_FFF0_iff, ← decide_eq_true_iff (p := _ ≤ 15)]
    exact decodeCommand_ok_iff_operand (f := .rdb) (fun _ => rfl) i
  · rw [and_mask_FFE0_iff, ← decide_eq_true_iff (p := _ ≤ 31)]
    exact decodeCommand_ok_iff_operand (f := .rdh) (fun _ => rfl) j

/-- Settles O13: the decoder evaluated on the ten words. -/
theorem sampleWordsDecode : Obligations.SampleWordsDecode := by
  unfold Obligations.SampleWordsDecode
  decide

end Sys2Proof.Proofs
end

section
/-! SUPPORT. FINAL, PADZERO and PADLEN where they are enabled, and where each instruction stops (41_sequencer.md R124;
40_padding.md R106, R107; 30_encoding.md R84). -/

namespace Sys2Proof.Machine

section
variable {s : State}

theorem exec_final_absorb (hst : s.st = .absorb) :
    exec .final s = .next (respondDone { s with fin := true, st := .pad80 }) :=
  calc exec .final s = execFinal s := rfl
    _ = _ := by rw [execFinal, accepted_ready ((ready_iff s).2 (.inr (.inl hst))), legalIn_legal hst]

theorem exec_pad80_eq_append (hst : s.st = .pad80) : exec .pad80 s = appendByte 0x80 .padzero s := if_pos hst

theorem exec_padzero_end (hst : s.st = .padzero) (hf : s.fill.val = 56) :
    exec .padzero s = .next { s with st := .padlen } :=
  calc exec .padzero s = execPadzero s := rfl
    _ = _ := by rw [execPadzero, if_pos hst, if_pos hf]

theorem exec_padzero_eq_append (hst : s.st = .padzero) (hf : s.fill.val ≠ 56) :
    exec .padzero s = appendByte 0x00 .padzero s :=
  calc exec .padzero s = execPadzero s := rfl
    _ = _ := by rw [execPadzero, if_pos hst, if_neg hf]

theorem exec_padzero (hst : s.st = .padzero) (hn : s.fill.val ≠ 56) (hf : s.fill.val < 64) :
    exec .padzero s = .next (appended 0x00 .padzero s hf) := by
  rw [exec_padzero_eq_append hst hn, appendByte_next hf]

/-- The state with `PADK` one more, as PADLEN leaves it beside the append. -/
def lengthByteCounted (s : State) (hk : s.padk.val < 8) : State :=
  { s with padk := ⟨s.padk.val + 1, by omega⟩ }

theorem exec_padlen_eq_append (hst : s.st = .padlen) (hk : s.padk.val < 8) :
    exec .padlen s = appendByte (lengthByte s.len.toNat s.padk.val) .padlen (lengthByteCounted s hk) :=
  dif_pos ⟨hst, hk⟩

theorem exec_padlen (hst : s.st = .padlen) (hk : s.padk.val < 8) (hf : s.fill.val < 64) :
    exec .padlen s =
      .next (appended (lengthByte s.len.toNat s.padk.val) .padlen (lengthByteCounted s hk) hf) := by
  rw [exec_padlen_eq_append hst hk]
  exact appendByte_next (s := lengthByteCounted s hk) hf

/-- Byte `k` of `8 * LEN` on numbers (40_padding.md R103). -/
theorem lengthByte_eq (len k : Nat) : lengthByte len k = BitVec.ofNat 8 (8 * len / 2 ^ (8 * k) % 256) := by
  apply BitVec.eq_of_toNat_eq
  rw [lengthByte, BitVec.toNat_ofNat, BitVec.toNat_ofNat, Nat.shiftRight_eq_div_pow, Nat.mod_mod]

theorem exec_padlen_disabled (h : s.st ≠ .padlen ∨ s.padk.val = 8) : exec .padlen s = .refused .notEnabled :=
  dif_neg fun ⟨hst, hk⟩ => h.elim (· hst) fun h8 => by omega

/-- A ROUND variant outside its phase is refused. -/
theorem roundStep_disabled {p : BitVec 2} {mix : Word → Word → Word → Word} {sched : Nat → Nat}
    (h : s.st ≠ .round ∨ phaseOf s.rnd ≠ p) : roundStep p mix sched s = .refused .notEnabled :=
  if_neg (by tauto)

end

end Sys2Proof.Machine

namespace Sys2Proof.Proofs

open Sys2Proof.Machine

/-- Settles O21: FINAL where it is legal, and SEQUENCE_ERROR elsewhere. -/
theorem finalEffect : Obligations.FinalEffect :=
  fun _ hr => ⟨exec_final_absorb, exec_final_outside_absorb hr⟩

/-- Settles O26: the step to PADLEN, or the append of a zero byte. -/
theorem padzeroEffect : Obligations.PadzeroEffect := by
  refine fun s hst => ⟨exec_padzero_end hst, fun hn hf => ⟨_, exec_padzero hst hn hf, ?_⟩⟩
  exact ⟨storesByte_appended _ _ hf, appended_fill, appended_len, appended_padk, appended_st, appended_rsp,
    keepsDigestState_appended _ _ hf⟩

/-- Settles O27: the append of the length byte; with `FILL = 56 + PADK` the block is full after byte 7. -/
theorem padlenEffect : Obligations.PadlenEffect := by
  intro s hst hk hf
  refine ⟨_, exec_padlen hst hk hf, ?_, rfl, appended_fill, appended_len, appended_st, fun h56 => ?_, appended_rsp,
    keepsDigestState_appended _ _ (s := lengthByteCounted s hk) hf⟩
  · rw [← lengthByte_eq]
    exact storesByte_appended _ _ (s := lengthByteCounted s hk) hf
  · have hfull : s.fill.val + 1 = 64 ↔ s.padk.val + 1 = 8 := by omega
    exact ite_eq_left_iff.trans ⟨fun h => hfull.1 (by_contra fun hn => nomatch h hn), fun h hn => absurd (hfull.2 h) hn⟩

/-- Settles O42: the arm of each instruction that stops, with its condition. -/
theorem stopsByName : Obligations.StopsByName := by
  refine ⟨fun s hst hm => ?_, fun s b hf => ⟨fun hst hl => ?_, fun hst => ?_, fun hst => ?_, fun hst hk => ?_⟩, fun s =>
    ⟨fun h => if_neg h, fun h => if_neg h, exec_padlen_disabled, fun h => if_neg h, roundStep_disabled,
      roundStep_disabled, roundStep_disabled, roundStep_disabled, fun h => if_neg h⟩⟩
  · rw [exec_round hst, hm]
  · rw [exec_push_absorb hst, if_neg (show s.len.toNat ≠ Config.maxLength from hl)]
    exact appendByte_full (s := pushCounted s) hf
  · rw [exec_pad80_eq_append hst, appendByte_full hf]
  · rw [exec_padzero_eq_append hst (by omega), appendByte_full hf]
  · rw [exec_padlen_eq_append hst hk]
    exact appendByte_full (s := lengthByteCounted s hk) hf

end Sys2Proof.Proofs
end

section
/-! SUPPORT. A step by the agent that is enabled: the reset, the accepted word, the waiting word (30_encoding.md R72;
70_reset_and_hazards.md R230). -/

namespace Sys2Proof.Machine

section
variable {s t : State} {w : CommandWord} {rest : List HostEvent}

/-- A ready engine accepts the presented word, held or offered. -/
theorem step_accepts (hr : s.ready = true) (hh : s.host = .hold w :: rest ∨ s.host = .offer w :: rest) :
    step s = acceptWord w { s with host := rest } := by
  obtain hh | hh := hh <;>
    rw [step_ready (by rw [hh]; rfl) hr, hostTurn_presented (by rw [hh]; rfl), hh, List.tail_cons]

theorem step_reset_head (hh : s.host = .reset :: rest) : step s = .next (resetEvent { s with host := rest }) := by
  rw [step_reset (by rw [hh]; rfl), hh, List.tail_cons]

/-- An accepted word is answered once and leaves the rest of the script alone (30_encoding.md R73). -/
theorem acceptWord_responds (hr : s.ready = true) (h : acceptWord w s = .next t) :
    t.host = s.host ∧ ∃ r, t.rsp = s.rsp ++ [r] := by
  have hrsp : ∃ r, t.rsp = s.rsp ++ [r] := by
    obtain ⟨c, -, -, rfl⟩ | ⟨i, -, hrsp, -⟩ := acceptWord_raises_or_answers hr h
    · exact ⟨_, rfl⟩
    · exact ⟨_, hrsp⟩
  refine ⟨?_, hrsp⟩
  cases hd : decodeCommand w with
  | ok i =>
    rw [acceptWord_ok hd] at h
    exact exec_host (exec_next h)
  | error e =>
    rw [acceptWord_error hr hd] at h
    cases h
    rfl

end

/-- A micro-operation neither looks at the script nor changes it. -/
theorem exec_micro_with_script {i : Instr} {s t : State} (hc : i.isCommand = false) (hx : ExecNext i s t)
    (l : List HostEvent) : exec i { s with host := l } = .next { t with host := l } := by
  cases hx with
  | waits h | raises _ _ h => rw [hc] at h; cases h
  | nop | rds | rdb | rdh | init | push | final => cases hc
  | pad80 hst hf => exact exec_pad80 (s := { s with host := l }) hst hf
  | padzeroEnd hst hf => exact exec_padzero_end (s := { s with host := l }) hst hf
  | padzero hst hn hf => exact exec_padzero (s := { s with host := l }) hst hn hf
  | padlen hst hk hf => exact exec_padlen (s := { s with host := l }) hst hk hf
  | cload hst hf => exact exec_cload (s := { s with host := l }) hst hf
  | cloadAssert hst hf => exact exec_cload_misaligned (s := { s with host := l }) hst hf
  | round hst hi hm =>
    subst hi
    exact (exec_round (s := { s with host := l }) hst).trans (by rw [hm]; rfl)
  | cadd hst => exact exec_cadd (s := { s with host := l }) hst

/-- A busy step with a held word, which goes on waiting: nothing of the script runs out, nothing is answered, and the
step is the one without the word (30_encoding.md R72). -/
theorem step_busy_held {s t : State} {w : CommandWord} {rest : List HostEvent} (hb : s.ready = false)
    (hh : s.host = .hold w :: rest) (h : step s = .next t) :
    t.host = s.host ∧ t.rsp = s.rsp ∧ step { s with host := [] } = .next { t with host := [] } := by
  rw [step_busy_waiting (by rw [hh]; rfl) (by rw [hh]; rfl) hb] at h
  have hc := enabledMicro_isCommand s
  have hx := exec_next h
  exact ⟨exec_host hx, exec_micro_rsp hc hx,
    (step_busy_waiting (s := { s with host := [] }) rfl rfl hb).trans (exec_micro_with_script hc hx [])⟩

end Sys2Proof.Machine

namespace Sys2Proof.Proofs

open Sys2Proof.Machine

/-- Settles O2: the reset event takes the input and leaves the rest of the script. -/
theorem resetEventClearsControlState : Obligations.ResetEventClearsControlState :=
  fun _ _ hh => ⟨_, step_reset_head hh, rfl, rfl, rfl, rfl, rfl, rfl, rfl, fun _ => rfl, rfl, rfl⟩

/-- Settles O14: the one agent that is enabled, with the decoder's answer. -/
theorem stepRunsDecodedInstruction : Obligations.StepRunsDecodedInstruction := by
  refine fun s i => ⟨fun w rest hr hh => ?_, fun hb hh hd => ?_⟩
  · exact ⟨step_accepts hr hh, fun hd => by rw [step_accepts hr hh, acceptWord_ok hd]⟩
  · obtain rfl : enabledMicro s = i := by simpa [decodeMicro_controlWord hb] using hd
    exact step_busy hh hb

/-- Settles O15: the ready states, and the four cases of a busy or ready engine with or without a word. -/
theorem commandsWaitWhileBusy : Obligations.CommandsWaitWhileBusy := by
  refine fun s => ⟨ready_iff s, fun t w rest => step_busy_held, step_ready_empty_script, fun t w rest hr hh h => ?_⟩
  rw [step_accepts hr (.inl hh)] at h
  exact acceptWord_responds (s := { s with host := rest }) hr h

/-- Settles O16: a command has an effect only where it is accepted. -/
theorem busyCommandChangesNothing : Obligations.BusyCommandChangesNothing := fun _ _ hc hb => exec_busy hc hb

end Sys2Proof.Proofs
end

section
/-! SUPPORT. The buffer under every step: the canonical form is kept (20_memory.md R50). -/

namespace Sys2Proof.Machine

/-- Only an append writes the buffer. -/
theorem exec_buf_wf {i : Instr} {s t : State} (hx : ExecNext i s t) (h : Memory.wf s.buf = true) :
    Memory.wf t.buf = true := by
  cases hx with
  | push _ _ hf | pad80 _ hf | padzero _ _ hf | padlen _ _ hf => exact wf_writeByte _ _ _ hf h
  | waits | nop | rds | rdb | rdh | raises | init | final | padzeroEnd | cload | cloadAssert | round | cadd => exact h

theorem step_buf_wf {s t : State} (hx : StepNext s t) (h : Memory.wf s.buf = true) : Memory.wf t.buf = true := by
  cases hx with
  | reset => exact wf_nil
  | rests | illegal => exact h
  | command _ _ _ _ hx | micro _ _ hx => exact exec_buf_wf hx h

end Sys2Proof.Machine

namespace Sys2Proof.Proofs

open Sys2Proof.Machine

/-- Settles O7: a step empties the buffer, leaves it or writes one byte below index 64. -/
theorem stepKeepsBufferCanonical : Obligations.StepKeepsBufferCanonical :=
  fun _ _ h hs => step_buf_wf (step_next hs) h

end Sys2Proof.Proofs
end

section
/-! SUPPORT. The invariant, state by state: the clauses of 10_state.md R38 that speak of one value of `ST` gathered into
one condition for it. -/

namespace Sys2Proof.Machine

/-- What holds with a full block in the buffer (10_state.md R38 (b); 41_sequencer.md R123;
43_accumulator_serializer.md R181). -/
def FullBlock (s : State) : Prop :=
  s.fill.val = 64 ∧ (s.padk.val = 0 ∨ s.padk.val = 8) ∧ (s.fin = false → s.len.toNat % 64 = 0)

/-- What the invariant says of `FILL`, `LEN`, `FIN`, `PADK` and `RND` in the sequencer state `st`. -/
def PositionAt (st : SeqState) (s : State) : Prop :=
  match st with
  | .idle => s.fill.val = 0 ∧ s.len = 0 ∧ s.fin = false ∧ s.padk.val = 0 ∧ s.rnd = 0
  | .absorb => s.fin = false ∧ s.padk.val = 0 ∧ s.fill.val = s.len.toNat % 64
  | .pad80 => s.fin = true ∧ s.padk.val = 0 ∧ s.fill.val = s.len.toNat % 64
  | .padzero => s.fin = true ∧ s.padk.val = 0 ∧ s.fill.val < 64
  | .padlen => s.fin = true ∧ s.padk.val ≤ 7 ∧ s.fill.val = 56 + s.padk.val
  | .cload => FullBlock s
  | .round => FullBlock s
  | .cadd => FullBlock s
  | .done => s.fin = true ∧ s.padk.val = 8 ∧ s.fill.val = 0
  | .fault => s.fill.val < 64

/-- Every byte that `FILL` counts has a value (10_state.md R37). -/
def Written (s : State) : Prop := ∀ i, i < s.fill.val → (readByte s.buf i).isSome = true

theorem positionAt_compressing {st : SeqState} {s : State} (h : compressing st = true) (hp : PositionAt st s) :
    FullBlock s := by
  cases st with
  | cload | round | cadd => exact hp
  | idle | absorb | pad80 | padzero | padlen | done | fault => cases h

theorem positionAt_fill_lt {st : SeqState} {s : State} (h : compressing st = false) (hp : PositionAt st s) :
    s.fill.val < 64 := by
  cases st with
  | cload | round | cadd => cases h
  | idle | absorb | pad80 | padzero | padlen | done | fault => simp only [PositionAt] at hp; omega

theorem positionAt_padding_fin {st : SeqState} {s : State} (h : padding st = true) (hp : PositionAt st s) :
    s.fin = true := by
  cases st with
  | pad80 | padzero | padlen => exact hp.1
  | idle | absorb | cload | round | cadd | done | fault => cases h

section
variable {s : State}

theorem State.Inv.fill_lt (h : s.Inv) (hc : compressing s.st = false) : s.fill.val < 64 := by
  have hne : s.fill.val ≠ 64 := fun hf => by simp [h.full.1 hf] at hc
  omega

theorem State.Inv.position (h : s.Inv) : PositionAt s.st s := by
  have hblock (hc : compressing s.st = true) : FullBlock s := ⟨h.full.2 hc, h.block hc, h.whole hc⟩
  cases hst : s.st with
  | idle => exact h.idle hst
  | absorb => exact h.absorb hst
  | pad80 => exact ⟨h.paddingFin (by rw [hst]; rfl), h.pad80 hst⟩
  | padzero => exact ⟨h.paddingFin (by rw [hst]; rfl), h.padzero hst, h.fill_lt (by rw [hst]; rfl)⟩
  | padlen => exact ⟨h.paddingFin (by rw [hst]; rfl), (h.padlen hst).2, (h.padlen hst).1⟩
  | cload | round | cadd => exact hblock (by rw [hst]; rfl)
  | done => exact h.done hst
  | fault => exact h.fill_lt (by rw [hst]; rfl)

theorem State.Inv.positionAt (h : s.Inv) {st : SeqState} (hst : s.st = st) : PositionAt st s := hst ▸ h.position

/-- The invariant from the condition of the present sequencer state. -/
theorem State.Inv.of_position (hbuf : Memory.wf s.buf = true) (hw : Written s) (hk : 0 < s.padk.val → s.fin = true)
    (hc : s.st = .fault ↔ s.cause ≠ .none) (hp : PositionAt s.st s) : s.Inv where
  canonical := hbuf
  written := hw
  full := by
    cases hcomp : compressing s.st with
    | true => exact iff_of_true (positionAt_compressing hcomp hp).1 rfl
    | false => exact iff_of_false (Nat.ne_of_lt (positionAt_fill_lt hcomp hp)) nofun
  absorb := fun hst => by rw [hst] at hp; exact hp
  idle := fun hst => by rw [hst] at hp; exact hp
  counted := hk
  paddingFin := fun hpad => positionAt_padding_fin hpad hp
  pad80 := fun hst => by rw [hst] at hp; exact hp.2
  padzero := fun hst => by rw [hst] at hp; exact hp.2.1
  padlen := fun hst => by rw [hst] at hp; exact ⟨hp.2.2, hp.2.1⟩
  block := fun hcomp => (positionAt_compressing hcomp hp).2.1
  whole := fun hcomp => (positionAt_compressing hcomp hp).2.2
  done := fun hst => by rw [hst] at hp; exact hp
  fault := hc

theorem State.Inv.cause_none (h : s.Inv) (hst : s.st ≠ .fault) : s.cause = .none :=
  not_not.1 fun hc => hst (h.fault.2 hc)

theorem ready_not_compressing (hr : s.ready = true) : compressing s.st = false := by
  obtain hst | hst | hst | hst := (ready_iff s).1 hr <;> rw [hst] <;> rfl

end

end Sys2Proof.Machine

namespace Sys2Proof.Proofs

open Sys2Proof.Machine

/-- Settles O3: nothing is written yet and IDLE's condition holds. -/
theorem resetStateIsWellFormed : Obligations.ResetStateIsWellFormed :=
  State.Inv.of_position wf_nil nofun nofun ⟨nofun, fun h => absurd rfl h⟩ ⟨rfl, rfl, rfl, rfl, rfl⟩

end Sys2Proof.Proofs
end

section
/-! SUPPORT. Every instruction keeps the invariant, and from a state with the invariant every step answers a next state
(10_state.md R38). -/

namespace Sys2Proof.Machine

section
variable {s : State}

/-- Fault entry in a ready state. -/
theorem inv_raiseCommand (h : s.Inv) (hr : s.ready = true) {c : Cause} (hc : c ≠ .none) : (raiseCommand c s).Inv :=
  State.Inv.of_position h.canonical h.written h.counted (iff_of_true rfl (raiseCommand_cause_ne_none hc s))
    (h.fill_lt (ready_not_compressing hr))

/-- INIT. -/
theorem inv_initialised (h : s.Inv) : (initialised s).Inv :=
  State.Inv.of_position h.canonical nofun nofun (iff_of_false nofun fun hc => hc rfl) ⟨rfl, rfl, rfl⟩

/-- An append keeps the invariant if it leads to a state whose condition holds. -/
theorem inv_appended {b : Byte} {o : SeqState} (hf : s.fill.val < 64) (hbuf : Memory.wf s.buf = true)
    (hw : Written s) (hk : 0 < s.padk.val → s.fin = true) (hc : s.cause = .none) (ho : o ≠ .fault)
    (hfull : s.fill.val + 1 = 64 → FullBlock (appended b o s hf))
    (hord : s.fill.val + 1 ≠ 64 → PositionAt o (appended b o s hf)) : (appended b o s hf).Inv := by
  refine State.Inv.of_position (wf_writeByte _ _ _ hf hbuf) (fun i hi => ?_) hk
    (iff_of_false (appended_st_ne_fault ho) (not_not.2 hc)) ?_
  · rw [appended_buf, readByte_writeByte]
    split
    · rfl
    · exact hw i (by rw [appended_fill] at hi; omega)
  · rw [appended_st]
    split
    · next h => exact hfull h
    · next h => exact hord h

/-- PUSH. -/
theorem inv_pushed (h : s.Inv) (hst : s.st = .absorb) (hl : s.len.toNat ≠ Config.maxLength) (hf : s.fill.val < 64)
    (b : Byte) : (appended b .absorb (pushCounted s) hf).Inv := by
  obtain ⟨hfin, hk, hfill⟩ := h.positionAt hst
  have hlen : (pushCounted s).len.toNat = s.len.toNat + 1 :=
    pushCounted_len (by have := s.len.isLt; unfold Config.maxLength at hl ⊢; omega)
  have hfull : s.fill.val + 1 = 64 → (s.len.toNat + 1) % 64 = 0 := by omega
  have hord : s.fill.val + 1 ≠ 64 → s.fill.val + 1 = (s.len.toNat + 1) % 64 := by omega
  rw [← hlen] at hfull hord
  exact inv_appended (s := pushCounted s) hf h.canonical h.written h.counted (h.cause_none (by rw [hst]; nofun)) nofun
    (fun h64 => ⟨h64, .inl hk, fun _ => hfull h64⟩) (fun h64 => ⟨hfin, hk, hord h64⟩)

/-- FINAL. -/
theorem inv_final (h : s.Inv) (hst : s.st = .absorb) : (respondDone { s with fin := true, st := .pad80 }).Inv := by
  obtain ⟨-, hk, hfill⟩ := h.positionAt hst
  exact State.Inv.of_position h.canonical h.written (fun _ => rfl)
    (iff_of_false nofun (not_not.2 (h.cause_none (by rw [hst]; nofun)))) ⟨rfl, hk, hfill⟩

/-- PAD80 and PADZERO: a byte of padding before the length field. -/
theorem inv_padded (h : s.Inv) (hst : s.st ≠ .fault) (hfin : s.fin = true) (hk : s.padk.val = 0)
    (hf : s.fill.val < 64) (b : Byte) : (appended b .padzero s hf).Inv :=
  inv_appended hf h.canonical h.written h.counted (h.cause_none hst) nofun
    (fun h64 => ⟨h64, .inl hk, fun hn => nomatch hfin.symm.trans hn⟩)
    (fun h64 => ⟨hfin, hk, by rw [appended_fill]; omega⟩)

/-- PADZERO at the length field. -/
theorem inv_padzero_end (h : s.Inv) (hst : s.st = .padzero) (hf : s.fill.val = 56) :
    State.Inv { s with st := .padlen } := by
  obtain ⟨hfin, hk, -⟩ := h.positionAt hst
  have hk7 : s.padk.val ≤ 7 := by omega
  have hf56 : s.fill.val = 56 + s.padk.val := by omega
  exact State.Inv.of_position h.canonical h.written h.counted
    (iff_of_false nofun (not_not.2 (h.cause_none (by rw [hst]; nofun)))) ⟨hfin, hk7, hf56⟩

/-- PADLEN. -/
theorem inv_padlen (h : s.Inv) (hst : s.st = .padlen) (hk : s.padk.val < 8) (hf : s.fill.val < 64) (b : Byte) :
    (appended b .padlen (lengthByteCounted s hk) hf).Inv := by
  obtain ⟨hfin, -, hfill⟩ := h.positionAt hst
  have hfull : s.fill.val + 1 = 64 → s.padk.val + 1 = 8 := by omega
  have hord : s.fill.val + 1 ≠ 64 → s.padk.val + 1 ≤ 7 := by omega
  have hcount : s.fill.val + 1 = 56 + (s.padk.val + 1) := by omega
  exact inv_appended (s := lengthByteCounted s hk) hf h.canonical h.written (fun _ => hfin)
    (h.cause_none (by rw [hst]; nofun)) nofun (fun h64 => ⟨h64, .inr (hfull h64), fun hn => nomatch hfin.symm.trans hn⟩)
    (fun h64 => ⟨hfin, hord h64, hcount⟩)

/-- A micro-operation that changes data registers and `RND` only, and stays with the full block. -/
theorem inv_compressing (h : s.Inv) (hst : compressing s.st = true) {st : SeqState} (hc : compressing st = true)
    (w : Quad) (r : BitVec 6) : State.Inv { s with w := w, rnd := r, st := st } := by
  have hblock := positionAt_compressing hst h.position
  have hnf : s.st ≠ .fault := fun hf => by rw [hf] at hst; cases hst
  have hnf' : st ≠ .fault := fun hf => by rw [hf] at hc; cases hc
  refine State.Inv.of_position h.canonical h.written h.counted (iff_of_false hnf' (not_not.2 (h.cause_none hnf))) ?_
  cases st with
  | cload | round | cadd => exact hblock
  | idle | absorb | pad80 | padzero | padlen | done | fault => cases hc

/-- CADD: by `FIN` and `PADK`, the three states that follow a block. -/
theorem inv_cadd (h : s.Inv) (hst : s.st = .cadd) :
    State.Inv { s with h := s.h.add s.w, fill := 0, st := afterBlock s } := by
  obtain ⟨-, hk, hwhole⟩ := h.positionAt hst
  have hc := h.cause_none (by rw [hst]; nofun)
  refine State.Inv.of_position h.canonical nofun h.counted
    (iff_of_false (afterBlock_ne_fault s) (not_not.2 hc)) ?_
  show PositionAt (afterBlock s) _
  rw [afterBlock_eq]
  by_cases hfin : s.fin = false
  · rw [if_pos hfin]
    have hk0 : s.padk.val = 0 := by
      by_contra hne
      rw [h.counted (Nat.pos_of_ne_zero hne)] at hfin
      cases hfin
    exact ⟨hfin, hk0, (hwhole hfin).symm⟩
  · rw [if_neg hfin]
    have hfin' : s.fin = true := by simpa using hfin
    by_cases h8 : s.padk.val = 8
    · rw [if_pos h8]
      exact ⟨hfin', h8, rfl⟩
    · rw [if_neg h8]
      exact ⟨hfin', hk.resolve_right h8, Nat.zero_lt_succ _⟩

/-- Every instruction keeps the invariant. -/
theorem inv_exec {i : Instr} {t : State} (hx : ExecNext i s t) (h : s.Inv) : t.Inv := by
  cases hx with
  | waits => exact h
  | nop | rds | rdb | rdh => exact inv_respond h _
  | raises hr _ _ hc _ => exact inv_raiseCommand h hr hc
  | init => exact inv_initialised h
  | push hst hl hf => exact inv_pushed h hst hl hf _
  | final hst => exact inv_final h hst
  | pad80 hst hf =>
    obtain ⟨hfin, hk, -⟩ := h.positionAt hst
    exact inv_padded h (by rw [hst]; nofun) hfin hk hf _
  | padzeroEnd hst hf => exact inv_padzero_end h hst hf
  | padzero hst _ hf =>
    obtain ⟨hfin, hk, -⟩ := h.positionAt hst
    exact inv_padded h (by rw [hst]; nofun) hfin hk hf _
  | padlen hst hk hf => exact inv_padlen h hst hk hf _
  | cload hst _ => exact inv_compressing h (by rw [hst]; rfl) rfl _ _
  | cloadAssert hst hf => exact absurd (h.positionAt hst).1 hf
  | round hst => exact inv_compressing h (by rw [hst]; rfl) (by split <;> rfl) _ _
  | cadd hst => exact inv_cadd h hst

/-- Every step keeps the invariant. -/
theorem inv_step {t : State} (hx : StepNext s t) (h : s.Inv) : t.Inv := by
  cases hx with
  | reset =>
    exact State.Inv.of_position wf_nil nofun nofun (iff_of_false nofun fun hc => hc rfl) ⟨rfl, rfl, rfl, rfl, rfl⟩
  | rests => exact inv_host h _
  | illegal hr => exact inv_raiseCommand (s := { s with host := s.host.tail }) (inv_host h _) hr nofun
  | command _ _ _ _ hx => exact inv_exec hx (inv_host h _)
  | micro _ _ hx => exact inv_exec hx (inv_host h _)

/-! ### Progress -/

theorem legalIn_next {c : SeqState} {r : Result} (h : s.st = c → ∃ t, r = .next t) : ∃ t, legalIn c s r = .next t := by
  by_cases hst : s.st = c
  · rw [legalIn_legal hst]
    exact h hst
  · exact ⟨_, legalIn_other hst⟩

theorem indexedRead_next (hr : s.ready = true) (i greatest : Nat) (t : State) :
    ∃ u, accepted s (if i ≤ greatest then legalIn .done s (.next t) else illegalCommand s) = .next u := by
  by_cases hi : i ≤ greatest
  · rw [accepted_ready hr, if_pos hi]
    exact legalIn_next fun _ => ⟨t, rfl⟩
  · exact ⟨_, indexedRead_over hr (Nat.lt_of_not_le hi) _⟩

/-- An accepted command answers a next state: PUSH too, since in ABSORB there is a byte to write. -/
theorem exec_command_next (h : s.Inv) (hr : s.ready = true) {i : Instr} (hc : i.isCommand = true) :
    ∃ t, exec i s = .next t := by
  cases i with
  | nop => exact ⟨_, exec_nop hr⟩
  | init => exact ⟨_, exec_init hr⟩
  | rds => exact ⟨_, exec_rds hr⟩
  | push b =>
    by_cases hst : s.st = .absorb
    · by_cases hl : s.len.toNat = Config.maxLength
      · exact ⟨_, exec_push_overflow hst hl b⟩
      · rw [exec_push_absorb hst, if_neg hl]
        exact ⟨_, appendByte_next (s := pushCounted s) (h.fill_lt (by rw [hst]; rfl))⟩
    · exact ⟨_, exec_push_outside_absorb hr hst b⟩
  | final =>
    by_cases hst : s.st = .absorb
    · exact ⟨_, exec_final_absorb hst⟩
    · exact ⟨_, exec_final_outside_absorb hr hst⟩
  | rdb k => exact indexedRead_next hr k.toNat maxDigestIndex _
  | rdh k => exact indexedRead_next hr k.toNat maxHexIndex _
  | pad80 | padzero | padlen | cload | roundP0 | roundP1 | roundP2 | roundP3 | cadd => cases hc

theorem acceptWord_next (h : s.Inv) (hr : s.ready = true) (w : CommandWord) : ∃ t, acceptWord w s = .next t := by
  cases hd : decodeCommand w with
  | error e => exact ⟨_, acceptWord_error hr hd⟩
  | ok i =>
    rw [acceptWord_ok hd]
    exact exec_command_next h hr (decodeCommand_isCommand hd)

theorem enabledMicro_pad80 (hst : s.st = .pad80) : enabledMicro s = .pad80 := by rw [enabledMicro, hst]

theorem enabledMicro_padzero (hst : s.st = .padzero) : enabledMicro s = .padzero := by rw [enabledMicro, hst]

theorem enabledMicro_padlen (hst : s.st = .padlen) : enabledMicro s = .padlen := by rw [enabledMicro, hst]

/-- The micro-operation of a busy state answers a next state. -/
theorem exec_enabledMicro_next (h : s.Inv) (hb : s.ready = false) : ∃ t, exec (enabledMicro s) s = .next t := by
  cases hst : s.st with
  | idle | absorb | done | fault => rw [State.ready, hst] at hb; cases hb
  | pad80 =>
    rw [enabledMicro_pad80 hst]
    exact ⟨_, exec_pad80 hst (h.fill_lt (by rw [hst]; rfl))⟩
  | padzero =>
    rw [enabledMicro_padzero hst]
    by_cases hf : s.fill.val = 56
    · exact ⟨_, exec_padzero_end hst hf⟩
    · exact ⟨_, exec_padzero hst hf (h.fill_lt (by rw [hst]; rfl))⟩
  | padlen =>
    rw [enabledMicro_padlen hst]
    exact ⟨_, exec_padlen hst (Nat.lt_succ_of_le (h.padlen hst).2) (h.fill_lt (by rw [hst]; rfl))⟩
  | cload =>
    rw [enabledMicro_cload hst]
    exact ⟨_, exec_cload hst (h.positionAt hst).1⟩
  | round =>
    have hfill : s.fill.val = 64 := (h.positionAt hst).1
    obtain ⟨m, hm⟩ := messageWord_isSome (fun i hi => h.written i (hfill ▸ hi)) (schedOf_lt s.rnd.toNat)
    rw [enabledMicro_round hst, exec_round hst, hm]
    exact ⟨_, rfl⟩
  | cadd =>
    rw [enabledMicro_cadd hst]
    exact ⟨_, exec_cadd hst⟩

theorem step_next_of_inv (h : s.Inv) : ∃ t, step s = .next t := by
  cases hh : resetAsserted s.host with
  | true => exact ⟨_, step_reset hh⟩
  | false =>
    cases hr : s.ready with
    | false =>
      rw [step_busy hh hr]
      exact exec_enabledMicro_next (s := { s with host := waiting s.host }) (inv_host h _) hr
    | true =>
      rw [step_ready hh hr]
      cases hp : presented s.host with
      | none => exact ⟨_, hostTurn_rests hh hp⟩
      | some w =>
        rw [hostTurn_presented hp]
        exact acceptWord_next (s := { s with host := s.host.tail }) (inv_host h _) hr w

/-! ### ALIGN_ASSERT -/

/-- The cause a command raises is none of a micro-operation. -/
theorem faultOf_ne_alignAssert (i : Instr) : faultOf i s ≠ some .alignAssert := by
  cases i <;> simp only [faultOf] <;> repeat' split
  all_goals nofun

theorem raiseCommand_cause_ne {c d : Cause} (hc : c ≠ d) (hs : s.cause ≠ d) : (raiseCommand c s).cause ≠ d := by
  rw [raiseCommand_cause]
  split
  · exact hc
  · exact hs

/-- ALIGN_ASSERT needs CLOAD without a full block. -/
theorem exec_cause_ne_alignAssert {i : Instr} {t : State} (hx : ExecNext i s t)
    (hfull : s.st = .cload → s.fill.val = 64) (hs : s.cause ≠ .alignAssert) : t.cause ≠ .alignAssert := by
  cases hx with
  | raises _ _ _ _ hf => exact raiseCommand_cause_ne (fun hc => faultOf_ne_alignAssert i (hc ▸ hf)) hs
  | cloadAssert hst hf => exact absurd (hfull hst) hf
  | init => nofun
  | waits | nop | rds | rdb | rdh | push | final | pad80 | padzeroEnd | padzero | padlen | cload | round | cadd =>
    exact hs

theorem step_cause_ne_alignAssert {t : State} (hx : StepNext s t) (h : s.Inv) (hs : s.cause ≠ .alignAssert) :
    t.cause ≠ .alignAssert := by
  have hfull : s.st = .cload → s.fill.val = 64 := fun hst => (h.positionAt hst).1
  cases hx with
  | reset => nofun
  | rests => exact hs
  | illegal => exact raiseCommand_cause_ne nofun hs
  | command _ _ _ _ hx | micro _ _ hx => exact exec_cause_ne_alignAssert hx hfull hs

end

end Sys2Proof.Machine

namespace Sys2Proof.Proofs

open Sys2Proof.Machine

/-- Settles O4: each agent's step keeps the invariant. -/
theorem stepKeepsWellFormedness : Obligations.StepKeepsWellFormedness :=
  fun _ _ h hs => inv_step (step_next hs) h

/-- Settles O5: each agent's step answers a next state. -/
theorem wellFormedStatesNeverStop : Obligations.WellFormedStatesNeverStop := fun _ h => step_next_of_inv h

/-- Settles O6: only CLOAD raises ALIGN_ASSERT, and with the invariant its block is full. -/
theorem alignAssertIsUnreachable : Obligations.AlignAssertIsUnreachable :=
  fun _ _ h hs hc => step_cause_ne_alignAssert (step_next hs) h hc

end Sys2Proof.Proofs
end

section
/-! SUPPORT. States that no later behaviour can tell apart answer alike: one lemma per shared operation, then the
commands, the micro-operations and the step (10_state.md R37; 41_sequencer.md R132). -/

namespace Sys2Proof.Machine

/-- Two answers that no later behaviour can tell apart. -/
inductive SameAnswer : Result → Result → Prop where
  | next {s t : State} (h : SameBehaviour s t) : SameAnswer (.next s) (.next t)
  | fault (f : Fault) : SameAnswer (.fault f) (.fault f)
  | refused (r : Refusal) : SameAnswer (.refused r) (.refused r)

/-- What one answer says of the other, kind by kind. -/
theorem SameAnswer.eachKind {a b : Result} (h : SameAnswer a b) :
    (∀ s, a = .next s → ∃ t, b = .next t ∧ SameBehaviour s t) ∧ (∀ f, a = .fault f → b = .fault f) ∧
      (∀ r, a = .refused r → b = .refused r) := by
  cases h with
  | next h =>
    refine ⟨fun s hs => ?_, nofun, nofun⟩
    cases hs
    exact ⟨_, rfl, h⟩
  | fault f => exact ⟨nofun, fun _ => id, nofun⟩
  | refused r => exact ⟨nofun, nofun, fun _ => id⟩

/-! ### The shared updates -/

section
variable {s t : State}

theorem SameBehaviour.with_host (h : SameBehaviour s t) (l : List HostEvent) :
    SameBehaviour { s with host := l } { t with host := l } := { h with host := rfl }

theorem SameBehaviour.respond (h : SameBehaviour s t) (r : Response) :
    SameBehaviour (respond r s) (respond r t) := { h with rsp := congrArg (· ++ [r]) h.rsp }

/-- In FAULT the data registers are dead. -/
theorem SameBehaviour.raise (h : SameBehaviour s t) (c : Cause) : SameBehaviour (raise c s) (raise c t) :=
  { h with
    st := rfl
    cause := by rw [raise_cause, raise_cause, h.cause]
    hash := nofun
    work := nofun
    block := nofun }

theorem SameBehaviour.raiseCommand (h : SameBehaviour s t) (c : Cause) :
    SameBehaviour (raiseCommand c s) (raiseCommand c t) := (h.raise c).respond _

/-- After a reset event nothing of the data is live. -/
theorem SameBehaviour.resetEvent (h : SameBehaviour s t) : SameBehaviour (resetEvent s) (resetEvent t) where
  fill := rfl
  len := rfl
  fin := rfl
  padk := rfl
  rnd := rfl
  st := rfl
  cause := rfl
  host := h.host
  rsp := h.rsp
  hash := nofun
  work := nofun
  bytes := nofun
  block := nofun

/-- INIT writes the hash state and leaves no byte of the buffer counted. -/
theorem SameBehaviour.initialised (h : SameBehaviour s t) : SameBehaviour (initialised s) (initialised t) where
  fill := rfl
  len := rfl
  fin := rfl
  padk := rfl
  rnd := rfl
  st := rfl
  cause := rfl
  host := h.host
  rsp := congrArg (· ++ [_]) h.rsp
  hash := fun _ => rfl
  work := nofun
  bytes := nofun
  block := nofun

theorem SameBehaviour.status_eq (h : SameBehaviour s t) : s.status = t.status := by
  unfold State.status
  rw [h.fill, h.fin, h.cause, h.st]

theorem SameBehaviour.ready_eq (h : SameBehaviour s t) : s.ready = t.ready := congrArg readyState h.st

theorem SameBehaviour.enabledMicro_eq (h : SameBehaviour s t) : enabledMicro s = enabledMicro t := by
  unfold enabledMicro
  rw [h.st, h.rnd]

theorem SameBehaviour.afterBlock_eq (h : SameBehaviour s t) : afterBlock s = afterBlock t := by
  unfold afterBlock
  rw [h.fin, h.padk]

/-- An append leads to no state where the local state is live. -/
theorem appended_localLive {b : Byte} {o : SeqState} {hf : s.fill.val < 64} (ho : localLive o = false) :
    localLive (appended b o s hf).st = false := by
  rw [appended_st]
  split
  · rfl
  · exact ho

theorem localLive_round {st : SeqState} (h : localLive st = false) : st ≠ .round := by
  rintro rfl
  cases h

/-- An append extends the counted bytes of both buffers by the same byte. -/
theorem SameBehaviour.appended (h : SameBehaviour s t) (hlive : hashLive s.st = true) {o : SeqState}
    (ho : localLive o = false) (b : Byte) (hf : s.fill.val < 64) (hg : t.fill.val < 64) :
    SameBehaviour (appended b o s hf) (appended b o t hg) :=
  { h with
    fill := Fin.ext (by rw [appended_fill, appended_fill, h.fill])
    st := by rw [appended_st, appended_st, h.fill]
    hash := fun _ => h.hash hlive
    work := fun hw => by rw [appended_localLive ho] at hw; cases hw
    bytes := fun i hi => by
      rw [appended_fill] at hi
      rw [appended_buf, appended_buf, readByte_writeByte, readByte_writeByte, ← h.fill]
      split
      · rfl
      · exact h.bytes i (by omega)
    block := fun hr => absurd hr (localLive_round (appended_localLive ho)) }

theorem sameAnswer_appendByte (h : SameBehaviour s t) (hlive : hashLive s.st = true) {o : SeqState}
    (ho : localLive o = false) (b : Byte) : SameAnswer (appendByte b o s) (appendByte b o t) := by
  by_cases hf : s.fill.val < 64
  · have hg : t.fill.val < 64 := h.fill ▸ hf
    rw [appendByte_next hf, appendByte_next hg]
    exact .next (h.appended hlive ho b hf hg)
  · have hfull : s.fill.val = 64 := by omega
    rw [appendByte_full hfull, appendByte_full (h.fill ▸ hfull)]
    exact .fault _

theorem sameAnswer_accepted (h : SameBehaviour s t) {r q : Result} (hr : SameAnswer r q) :
    SameAnswer (accepted s r) (accepted t q) := by
  cases hs : s.ready with
  | true => rwa [accepted_ready hs, accepted_ready (h.ready_eq ▸ hs)]
  | false =>
    rw [accepted_busy hs, accepted_busy (h.ready_eq ▸ hs)]
    exact .next h

theorem sameAnswer_legalIn (h : SameBehaviour s t) {c : SeqState} {r q : Result} (hr : s.st = c → SameAnswer r q) :
    SameAnswer (legalIn c s r) (legalIn c t q) := by
  by_cases hs : s.st = c
  · rw [legalIn_legal hs, legalIn_legal (h.st ▸ hs)]
    exact hr hs
  · rw [legalIn_other hs, legalIn_other (h.st ▸ hs)]
    exact .next (h.raiseCommand _)

/-! ### The commands -/

/-- A read by index shows a value that both states have in DONE. -/
theorem sameAnswer_indexedRead (h : SameBehaviour s t) (i greatest : Nat) {x y : BitVec 16} (hxy : s.h = t.h → x = y) :
    SameAnswer
      (accepted s (if i ≤ greatest then legalIn .done s (.next (respond ⟨false, x⟩ s)) else illegalCommand s))
      (accepted t (if i ≤ greatest then legalIn .done t (.next (respond ⟨false, y⟩ t)) else illegalCommand t)) := by
  refine sameAnswer_accepted h ?_
  split
  · refine sameAnswer_legalIn h fun hst => ?_
    rw [hxy (h.hash (by rw [hst]; rfl))]
    exact .next (h.respond _)
  · exact .next (h.raiseCommand _)

theorem sameAnswer_push (h : SameBehaviour s t) (b : Byte) : SameAnswer (execPush b s) (execPush b t) := by
  refine sameAnswer_accepted h (sameAnswer_legalIn h fun hst => ?_)
  rw [h.len]
  split
  · exact .next (h.raiseCommand _)
  · have hcounted : SameBehaviour (pushCounted s) (pushCounted t) :=
      { h with
        len := congrArg (· + 1) h.len
        rsp := congrArg (· ++ [_]) h.rsp }
    have hlive : hashLive (pushCounted s).st = true := by rw [show (pushCounted s).st = .absorb from hst]; rfl
    have happend := sameAnswer_appendByte hcounted hlive (o := .absorb) rfl b
    unfold pushCounted at happend
    rwa [h.len] at happend

theorem sameAnswer_final (h : SameBehaviour s t) : SameAnswer (execFinal s) (execFinal t) := by
  refine sameAnswer_accepted h (sameAnswer_legalIn h fun hst => .next ?_)
  exact { h with
    fin := rfl
    st := rfl
    rsp := congrArg (· ++ [_]) h.rsp
    hash := fun _ => h.hash (by rw [hst]; rfl)
    work := nofun
    block := nofun }

theorem sameAnswer_command (h : SameBehaviour s t) {i : Instr} (hc : i.isCommand = true) :
    SameAnswer (exec i s) (exec i t) := by
  cases i with
  | nop => exact sameAnswer_accepted h (.next (h.respond _))
  | init => exact sameAnswer_accepted h (.next h.initialised)
  | push b => exact sameAnswer_push h b
  | final => exact sameAnswer_final h
  | rdb k => exact sameAnswer_indexedRead h _ _ fun hh => by rw [hh]
  | rdh k => exact sameAnswer_indexedRead h _ _ fun hh => by rw [hh]
  | rds =>
    have hrds := sameAnswer_accepted h (.next (h.respond ⟨false, s.status⟩))
    rwa [show respond ⟨false, s.status⟩ t = respond ⟨false, t.status⟩ t by rw [h.status_eq]] at hrds
  | pad80 | padzero | padlen | cload | roundP0 | roundP1 | roundP2 | roundP3 | cadd => cases hc

theorem sameAnswer_acceptWord (h : SameBehaviour s t) (w : CommandWord) :
    SameAnswer (acceptWord w s) (acceptWord w t) := by
  unfold acceptWord
  cases hd : decodeCommand w with
  | ok i => exact sameAnswer_command h (decodeCommand_isCommand hd)
  | error e => exact sameAnswer_accepted h (.next (h.raiseCommand _))

/-! ### The micro-operations -/

theorem sameAnswer_padzero (h : SameBehaviour s t) (hst : s.st = .padzero) :
    SameAnswer (exec .padzero s) (exec .padzero t) := by
  have hlive : hashLive s.st = true := by rw [hst]; rfl
  by_cases hf : s.fill.val = 56
  · rw [exec_padzero_end hst hf, exec_padzero_end (h.st ▸ hst) (h.fill ▸ hf)]
    exact .next { h with st := rfl, hash := fun _ => h.hash hlive, work := nofun, block := nofun }
  · rw [exec_padzero_eq_append hst hf, exec_padzero_eq_append (h.st ▸ hst) (h.fill ▸ hf)]
    exact sameAnswer_appendByte h hlive rfl _

theorem sameAnswer_padlen (h : SameBehaviour s t) (hst : s.st = .padlen) :
    SameAnswer (exec .padlen s) (exec .padlen t) := by
  by_cases hk : s.padk.val < 8
  · have hk' : t.padk.val < 8 := h.padk ▸ hk
    have hcounted : SameBehaviour (lengthByteCounted s hk) (lengthByteCounted t hk') :=
      { h with padk := Fin.ext (congrArg (·.val + 1) h.padk) }
    rw [exec_padlen_eq_append hst hk, exec_padlen_eq_append (h.st ▸ hst) hk', h.len, h.padk]
    exact sameAnswer_appendByte hcounted (by rw [show (lengthByteCounted s hk).st = .padlen from hst]; rfl) rfl _
  · have h8 : s.padk.val = 8 := by omega
    rw [exec_padlen_disabled (.inr h8), exec_padlen_disabled (.inr (h.padk ▸ h8))]
    exact .refused _

/-- CLOAD makes the local state live, from a hash state that both have. -/
theorem sameAnswer_cload (h : SameBehaviour s t) (hst : s.st = .cload) :
    SameAnswer (exec .cload s) (exec .cload t) := by
  have hhash : s.h = t.h := h.hash (by rw [hst]; rfl)
  by_cases hf : s.fill.val = 64
  · rw [exec_cload hst hf, exec_cload (h.st ▸ hst) (h.fill ▸ hf)]
    exact .next { h with
      rnd := rfl
      st := rfl
      hash := fun _ => hhash
      work := fun _ => hhash
      block := fun _ i hi => h.bytes i (hf ▸ hi) }
  · rw [exec_cload_misaligned hst hf, exec_cload_misaligned (h.st ▸ hst) (h.fill ▸ hf)]
    exact .next (h.raise _)

/-- A round reads a word of the block that both buffers hold. -/
theorem sameAnswer_round (h : SameBehaviour s t) (hst : s.st = .round) :
    SameAnswer (exec (roundOfPhase (phaseOf s.rnd)) s) (exec (roundOfPhase (phaseOf s.rnd)) t) := by
  have hwork : s.w = t.w := h.work (by rw [hst]; rfl)
  have hword : messageWord s.buf (schedOf s.rnd.toNat) = messageWord t.buf (schedOf s.rnd.toNat) :=
    messageWord_congr fun k hk => h.block hst _ (by have := schedOf_lt s.rnd.toNat; omega)
  have ht := exec_round (s := t) (h.st ▸ hst)
  rw [← h.rnd] at ht
  rw [exec_round hst, ht, hword]
  cases messageWord t.buf (schedOf s.rnd.toNat) with
  | none => exact .fault _
  | some m =>
    exact .next { h with
      rnd := by rw [rounded_rnd, rounded_rnd, h.rnd]
      st := by rw [rounded_st, rounded_st, h.rnd]
      hash := fun _ => h.hash (by rw [hst]; rfl)
      work := fun _ => by rw [rounded_w, rounded_w, hwork, h.rnd]
      block := fun _ => h.block hst }

theorem sameAnswer_cadd (h : SameBehaviour s t) (hst : s.st = .cadd) : SameAnswer (exec .cadd s) (exec .cadd t) := by
  have hlive : hashLive s.st = true ∧ localLive s.st = true := by rw [hst]; exact ⟨rfl, rfl⟩
  have hafter : localLive (afterBlock s) = false := by
    rw [afterBlock_eq]
    repeat' split
    all_goals rfl
  rw [exec_cadd hst, exec_cadd (h.st ▸ hst)]
  exact .next { h with
    fill := rfl
    st := h.afterBlock_eq
    hash := fun _ => congrArg₂ Quad.add (h.hash hlive.1) (h.work hlive.2)
    work := fun hw => by rw [show localLive _ = false from hafter] at hw; cases hw
    bytes := nofun
    block := fun hr => absurd hr (localLive_round hafter) }

theorem sameAnswer_enabledMicro (h : SameBehaviour s t) (hb : s.ready = false) :
    SameAnswer (exec (enabledMicro s) s) (exec (enabledMicro s) t) := by
  cases hst : s.st with
  | idle | absorb | done | fault => rw [State.ready, hst] at hb; cases hb
  | pad80 =>
    rw [enabledMicro_pad80 hst, exec_pad80_eq_append hst, exec_pad80_eq_append (h.st ▸ hst)]
    exact sameAnswer_appendByte h (by rw [hst]; rfl) rfl _
  | padzero =>
    rw [enabledMicro_padzero hst]
    exact sameAnswer_padzero h hst
  | padlen =>
    rw [enabledMicro_padlen hst]
    exact sameAnswer_padlen h hst
  | cload =>
    rw [enabledMicro_cload hst]
    exact sameAnswer_cload h hst
  | round =>
    rw [enabledMicro_round hst]
    exact sameAnswer_round h hst
  | cadd =>
    rw [enabledMicro_cadd hst]
    exact sameAnswer_cadd h hst

/-! ### The step -/

theorem sameAnswer_step (h : SameBehaviour s t) : SameAnswer (step s) (step t) := by
  cases hh : resetAsserted s.host with
  | true =>
    rw [step_reset hh, step_reset (h.host ▸ hh), ← h.host]
    exact .next (h.with_host _).resetEvent
  | false =>
    have hh' : resetAsserted t.host = false := h.host ▸ hh
    cases hr : s.ready with
    | false =>
      rw [step_busy hh hr, step_busy hh' (h.ready_eq ▸ hr), ← h.enabledMicro_eq, ← h.host]
      exact sameAnswer_enabledMicro (h.with_host (waiting s.host)) hr
    | true =>
      rw [step_ready hh hr, step_ready hh' (h.ready_eq ▸ hr)]
      cases hp : presented s.host with
      | none =>
        rw [hostTurn_rests hh hp, hostTurn_rests hh' (h.host ▸ hp), ← h.host]
        exact .next (h.with_host _)
      | some w =>
        rw [hostTurn_presented hp, hostTurn_presented (h.host ▸ hp), ← h.host]
        exact sameAnswer_acceptWord (h.with_host _) w

end

end Sys2Proof.Machine

namespace Sys2Proof.Proofs

open Sys2Proof.Machine

/-- Settles O47: the two steps answer alike, and each kind of answer fixes the other's. -/
theorem deadDataIsNeverSeen : Obligations.DeadDataIsNeverSeen :=
  fun _ _ h => (sameAnswer_step h).eachKind

end Sys2Proof.Proofs
end

section
/-! SUPPORT. The transition table, for accepted words and for micro-operations (41_sequencer.md R129). -/

namespace Sys2Proof.Machine

section
variable {s t : State} {i : Instr}

/-- NOP and RDS stay where they are. -/
theorem commandTarget_same (hr : s.ready = true) (hi : i = .nop ∨ i = .rds) : commandTarget s (some i) = s.st := by
  obtain h | h | h | h := (ready_iff s).1 hr <;> obtain rfl | rfl := hi <;> simp [commandTarget, h]

theorem commandTarget_init (hr : s.ready = true) : commandTarget s (some .init) = .absorb := by
  obtain h | h | h | h := (ready_iff s).1 hr <;> simp [commandTarget, h]

/-- Where a well-formed command raises a fault, the table leads to FAULT. -/
theorem commandTarget_of_faultOf (hr : s.ready = true) (hwf : i.wf = true) {c : Cause} (hf : faultOf i s = some c) :
    commandTarget s (some i) = .fault := by
  cases i with
  | nop | init | rds | pad80 | padzero | padlen | cload | roundP0 | roundP1 | roundP2 | roundP3 | cadd => cases hf
  | push b =>
    obtain h | h | h | h := (ready_iff s).1 hr
    case inr.inl =>
      by_cases hl : s.len.toNat = Config.maxLength
      · simp [commandTarget, h, hl]
      · simp [faultOf, h, hl] at hf
    all_goals simp [commandTarget, h]
  | final =>
    obtain h | h | h | h := (ready_iff s).1 hr
    case inr.inl => simp [faultOf, h] at hf
    all_goals simp [commandTarget, h]
  | rdb k =>
    obtain h | h | h | h := (ready_iff s).1 hr
    case inr.inr.inl => simp [faultOf, h, Nat.not_lt.2 (of_decide_eq_true hwf)] at hf
    all_goals simp [commandTarget, h]
  | rdh k =>
    obtain h | h | h | h := (ready_iff s).1 hr
    case inr.inr.inl => simp [faultOf, h, Nat.not_lt.2 (of_decide_eq_true hwf)] at hf
    all_goals simp [commandTarget, h]

/-- The rows of the ready states. -/
theorem exec_command_target (hr : s.ready = true) (hc : i.isCommand = true) (hwf : i.wf = true)
    (hx : ExecNext i s t) : t.st = commandTarget s (some i) := by
  cases hx with
  | waits _ hb => rw [hr] at hb; cases hb
  | nop => exact (commandTarget_same hr (.inl rfl)).symm
  | rds => exact (commandTarget_same hr (.inr rfl)).symm
  | init => exact (commandTarget_init hr).symm
  | raises _ _ _ _ hf => exact (commandTarget_of_faultOf hr hwf hf).symm
  | rdb _ hst | rdh _ hst => simp [commandTarget, hst]
  | push hst hl _ => simp [commandTarget, hst, hl]
  | final hst => simp [commandTarget, hst]
  | round _ hi _ => rw [hi, roundOfPhase_isCommand] at hc; cases hc
  | pad80 | padzeroEnd | padzero | padlen | cload | cloadAssert | cadd => cases hc

theorem acceptWord_target {w : CommandWord} (hr : s.ready = true) (h : acceptWord w s = .next t) :
    t.st = commandTarget s (acceptedInstr (decodeCommand w)) := by
  cases hd : decodeCommand w with
  | error e =>
    rw [acceptWord_error hr hd] at h
    cases h
    rfl
  | ok i =>
    rw [acceptWord_ok hd] at h
    exact exec_command_target hr (decodeCommand_isCommand hd) (wf_of_decodeCommand hd) (exec_next h)

/-- The rows of the busy states. -/
theorem exec_micro_target (hc : i.isCommand = false) (hx : ExecNext i s t) : t.st = microTarget s := by
  cases hx with
  | waits h | raises _ _ h => rw [hc] at h; cases h
  | nop | rds | rdb | rdh | init | push | final => cases hc
  | pad80 hst | padlen hst => simp [microTarget, hst]
  | padzeroEnd hst hf => simp [microTarget, hst, hf]
  | padzero hst hn => simp [microTarget, hst, hn]
  | cload hst hf | cloadAssert hst hf => simp [microTarget, hst, hf]
  | round hst => simp [microTarget, hst]
  | cadd hst =>
    have hk := s.padk.isLt
    simp only [microTarget, hst, afterBlock_eq]
    split
    · rfl
    · split
      · rw [if_neg (by omega)]
      · rw [if_pos (by omega)]

end

end Sys2Proof.Machine

namespace Sys2Proof.Proofs

open Sys2Proof.Machine

/-- Settles O43: a clause for each agent. -/
theorem transitionTable : Obligations.TransitionTable := by
  refine fun s t h => ⟨fun hh => ?_, fun w hr hp => ?_, fun hr hh => ?_, fun hb hh => ?_⟩
  · rw [step_reset hh] at h
    cases h
    rfl
  · obtain ⟨rest, hh⟩ := hp
    rw [step_accepts hr hh] at h
    exact acceptWord_target (s := { s with host := rest }) hr h
  · have hrest : resetAsserted s.host = false ∧ presented s.host = none := by
      obtain hh | ⟨rest, hh⟩ := hh <;> rw [hh] <;> exact ⟨rfl, rfl⟩
    rw [step_ready hrest.1 hr, hostTurn_rests hrest.1 hrest.2] at h
    cases h
    rfl
  · rw [step_busy hh hb] at h
    exact exec_micro_target (s := { s with host := waiting s.host }) (enabledMicro_isCommand s) (exec_next h)

end Sys2Proof.Proofs
end

section
/-! SUPPORT. A full block and CLOAD (41_sequencer.md R126). -/

namespace Sys2Proof.Machine

/-- A state in which `FILL` has become 64 is in CLOAD, and CLOAD is entered by the byte that fills the block. -/
def BlockFullRule (s t : State) : Prop :=
  (t.fill.val = 64 → s.fill.val ≠ 64 → t.st = .cload) ∧
    (t.st = .cload → s.st ≠ .cload → s.fill.val = 63 ∧ t.fill.val = 64)

theorem blockFullRule_appended (b : Byte) {o : SeqState} {s : State} (hf : s.fill.val < 64) (ho : o ≠ .cload) :
    BlockFullRule s (appended b o s hf) := by
  unfold BlockFullRule
  rw [appended_fill, appended_st]
  by_cases h64 : s.fill.val + 1 = 64
  · rw [if_pos h64]
    exact ⟨fun _ _ => rfl, fun _ _ => ⟨by omega, h64⟩⟩
  · rw [if_neg h64]
    exact ⟨fun h => absurd h h64, fun h => absurd h ho⟩

/-- Where `FILL` and `ST` stay. -/
theorem blockFullRule_of_same {s t : State} (hf : t.fill = s.fill) (hst : t.st = s.st) : BlockFullRule s t :=
  ⟨fun h hn => absurd (hf ▸ h) hn, fun h hn => absurd (hst ▸ h) hn⟩

/-- Where `FILL` is not raised and another state than CLOAD follows. -/
theorem blockFullRule_of_other {s t : State} (hf : t.fill = s.fill ∨ t.fill = 0) (hst : t.st ≠ .cload) :
    BlockFullRule s t := by
  refine ⟨fun h hn => ?_, fun h => absurd h hst⟩
  obtain hf | hf := hf
  · exact absurd (hf ▸ h) hn
  · rw [hf] at h
    cases h

/-- The rule does not look at the script. -/
theorem BlockFullRule.of_host {s t : State} {l : List HostEvent} (h : BlockFullRule { s with host := l } t) :
    BlockFullRule s t := h

theorem exec_blockFullRule {i : Instr} {s t : State} (hx : ExecNext i s t) : BlockFullRule s t := by
  cases hx with
  | waits | nop | rds | rdb | rdh => exact blockFullRule_of_same rfl rfl
  | @push b s _ _ hf => exact blockFullRule_appended b (s := pushCounted s) hf nofun
  | pad80 _ hf | padzero _ _ hf => exact blockFullRule_appended _ hf nofun
  | padlen _ hk hf => exact blockFullRule_appended _ (s := lengthByteCounted s hk) hf nofun
  | raises | final | padzeroEnd | cload | cloadAssert => exact blockFullRule_of_other (.inl rfl) nofun
  | init => exact blockFullRule_of_other (.inr rfl) nofun
  | round => exact blockFullRule_of_other (.inl rfl) (by rw [rounded_st]; split <;> nofun)
  | cadd => exact blockFullRule_of_other (.inr rfl) (by
      show afterBlock s ≠ _
      rw [afterBlock_eq]
      repeat' split
      all_goals nofun)

theorem step_blockFullRule {s t : State} (hx : StepNext s t) : BlockFullRule s t := by
  cases hx with
  | reset => exact blockFullRule_of_other (.inr rfl) nofun
  | rests => exact blockFullRule_of_same rfl rfl
  | illegal => exact blockFullRule_of_other (.inl rfl) nofun
  | command _ _ _ _ hx | micro _ _ hx => exact (exec_blockFullRule hx).of_host

end Sys2Proof.Machine

namespace Sys2Proof.Proofs

open Sys2Proof.Machine

/-- Settles O44: only an append raises `FILL` or leads to CLOAD. -/
theorem fullBlockStartsCompression : Obligations.FullBlockStartsCompression :=
  fun _ _ h => step_blockFullRule (step_next h)

end Sys2Proof.Proofs
end

section
/-! SUPPORT. Who writes `H`, `LEN`, `FIN` and `CAUSE` (10_state.md R20, column "written by"), and what is left alone in
DONE (43_accumulator_serializer.md R189). -/

namespace Sys2Proof.Machine

/-- The writers of `H`, `LEN`, `FIN` and `CAUSE` between `s` and `t`; `runs i` says that the command `i` runs. -/
def WrittenBy (runs : Instr → Prop) (s t : State) : Prop :=
  (t.h ≠ s.h → runs .init ∨ s.st = .cadd) ∧
  (t.len ≠ s.len → (runs .init ∧ t.len = 0) ∨
    ∃ b, runs (.push b) ∧ s.st = .absorb ∧ t.len.toNat = s.len.toNat + 1) ∧
  (t.fin ≠ s.fin → (runs .init ∧ t.fin = false) ∨ (runs .final ∧ s.st = .absorb ∧ t.st = .pad80 ∧ t.fin = true)) ∧
  (t.cause ≠ s.cause → (runs .init ∧ t.cause = .none) ∨ (s.cause = .none ∧ t.st = .fault))

theorem writtenBy_of_same {runs : Instr → Prop} {s t : State} (hh : t.h = s.h) (hl : t.len = s.len)
    (hf : t.fin = s.fin) (hc : t.cause = s.cause) : WrittenBy runs s t :=
  ⟨fun h => absurd hh h, fun h => absurd hl h, fun h => absurd hf h, fun h => absurd hc h⟩

theorem writtenBy_raise (runs : Instr → Prop) (c : Cause) (s : State) : WrittenBy runs s (raise c s) := by
  refine ⟨fun h => absurd rfl h, fun h => absurd rfl h, fun h => absurd rfl h, fun h => .inr ⟨?_, rfl⟩⟩
  by_contra hc
  exact h (if_neg hc)

theorem writtenBy_raiseCommand (runs : Instr → Prop) (c : Cause) (s : State) :
    WrittenBy runs s (raiseCommand c s) := writtenBy_raise runs c s

/-- The four registers are not the script. -/
theorem WrittenBy.of_host {runs : Instr → Prop} {s t : State} {l : List HostEvent}
    (h : WrittenBy runs { s with host := l } t) : WrittenBy runs s t := h

theorem WrittenBy.imp {runs runs' : Instr → Prop} {s t : State} (hr : ∀ i, runs i → runs' i) (h : WrittenBy runs s t) :
    WrittenBy runs' s t := by
  obtain ⟨hh, hl, hf, hc⟩ := h
  refine ⟨fun hn => (hh hn).imp_left (hr _), fun hn => ?_, fun hn => ?_, fun hn => ?_⟩
  · obtain ⟨h1, h2⟩ | ⟨b, h1, h2⟩ := hl hn
    · exact .inl ⟨hr _ h1, h2⟩
    · exact .inr ⟨b, hr _ h1, h2⟩
  · exact (hf hn).imp (And.imp_left (hr _)) (And.imp_left (hr _))
  · exact (hc hn).imp_left (And.imp_left (hr _))

/-- The writer is the instruction itself, where it is a command, or CADD. -/
theorem exec_writtenBy {i : Instr} {s t : State} (hx : ExecNext i s t) :
    WrittenBy (fun j => j = i ∧ j.isCommand = true) s t := by
  cases hx with
  | waits | nop | rds | rdb | rdh | pad80 | padzeroEnd | padzero | padlen | cload | round =>
    exact writtenBy_of_same rfl rfl rfl rfl
  | raises => exact writtenBy_raiseCommand _ _ _
  | cloadAssert => exact writtenBy_raise _ _ _
  | init =>
    have hi : Instr.init = .init ∧ Instr.init.isCommand = true := ⟨rfl, rfl⟩
    exact ⟨fun _ => .inl hi, fun _ => .inl ⟨hi, rfl⟩, fun _ => .inl ⟨hi, rfl⟩, fun _ => .inl ⟨hi, rfl⟩⟩
  | push hst hl _ =>
    have hlt : s.len.toNat < Config.maxLength := by have := s.len.isLt; unfold Config.maxLength at hl ⊢; omega
    exact ⟨fun h => absurd rfl h, fun _ => .inr ⟨_, ⟨rfl, rfl⟩, hst, pushCounted_len hlt⟩, fun h => absurd rfl h,
      fun h => absurd rfl h⟩
  | final hst =>
    exact ⟨fun h => absurd rfl h, fun h => absurd rfl h, fun _ => .inr ⟨⟨rfl, rfl⟩, hst, rfl, rfl⟩,
      fun h => absurd rfl h⟩
  | cadd hst => exact ⟨fun _ => .inr hst, fun h => absurd rfl h, fun h => absurd rfl h, fun h => absurd rfl h⟩

/-- The host presents the word of the command `i` to a ready engine (30_encoding.md R72). -/
def Accepts (s : State) (i : Instr) : Prop := s.ready = true ∧ ∃ w, encode i = .command w ∧ Presents s w

theorem step_writtenBy {s t : State} (hx : StepNext s t) (hh : resetAsserted s.host = false) :
    WrittenBy (Accepts s) s t := by
  cases hx with
  | reset hreset => rw [hh] at hreset; cases hreset
  | rests => exact writtenBy_of_same rfl rfl rfl rfl
  | illegal => exact (writtenBy_raiseCommand _ _ _).of_host
  | command hr _ hp hd hx =>
    refine (exec_writtenBy hx).of_host.imp ?_
    rintro _ ⟨rfl, -⟩
    exact ⟨hr, _, (encode_of_decodeCommand hd).2, presented_iff.1 hp⟩
  | micro _ _ hx =>
    refine (exec_writtenBy hx).of_host.imp ?_
    rintro _ ⟨rfl, hc⟩
    rw [enabledMicro_isCommand] at hc
    cases hc

/-- In DONE a command other than INIT raises a fault or only responds. -/
theorem exec_in_done {i : Instr} {s t : State} (hst : s.st = .done) (hc : i.isCommand = true) (hi : i ≠ .init)
    (hx : ExecNext i s t) : (∃ c, t = raiseCommand c s) ∨ ∃ r, t = respond r s := by
  cases hx with
  | waits _ hb => rw [State.ready, hst] at hb; cases hb
  | nop | rds | rdb | rdh => exact .inr ⟨_, rfl⟩
  | raises => exact .inl ⟨_, rfl⟩
  | init => exact absurd rfl hi
  | push h | final h => rw [hst] at h; cases h
  | round h => rw [hst] at h; cases h
  | pad80 | padzeroEnd | padzero | padlen | cload | cloadAssert | cadd => cases hc

theorem acceptWord_in_done {w : CommandWord} {s t : State} (hst : s.st = .done) (hw : w ≠ 0x1000)
    (h : acceptWord w s = .next t) : (∃ c, t = raiseCommand c s) ∨ ∃ r, t = respond r s := by
  cases hd : decodeCommand w with
  | error e =>
    rw [acceptWord_error ((ready_iff s).2 (.inr (.inr (.inl hst)))) hd] at h
    exact .inl ⟨_, (Host.Outcome.next.inj h).symm⟩
  | ok i =>
    rw [acceptWord_ok hd] at h
    refine exec_in_done hst (decodeCommand_isCommand hd) ?_ (exec_next h)
    rintro rfl
    exact hw (Encoding.command.inj (encode_of_decodeCommand hd).2).symm

end Sys2Proof.Machine

namespace Sys2Proof.Proofs

open Sys2Proof.Machine

/-- Settles O45: the writers are accepted commands and CADD; each accepted command has one word. -/
theorem writersOfTheRegisters : Obligations.WritersOfTheRegisters := by
  intro s t h hh
  have hinit : Accepts s .init → InitAccepted s := by
    rintro ⟨hr, w, hw, hp⟩
    obtain rfl : 0x1000 = w := Encoding.command.inj hw
    exact ⟨hr, hp⟩
  obtain ⟨hhash, hlen, hfin, hcause⟩ := step_writtenBy (step_next h) hh
  refine ⟨fun hn => (hhash hn).imp_left hinit, fun hn => (hlen hn).imp (And.imp_left hinit) ?_,
    fun hn => (hfin hn).imp (And.imp_left hinit) ?_, fun hn => (hcause hn).imp_left (And.imp_left hinit)⟩
  · rintro ⟨b, ⟨hr, w, hw, hp⟩, hst, hcount⟩
    obtain rfl : commandWord 2 b = w := Encoding.command.inj hw
    exact ⟨b, hr, by rwa [pushWord_eq_commandWord], hst, hcount⟩
  · rintro ⟨⟨hr, w, hw, hp⟩, hst⟩
    obtain rfl : 0x3000 = w := Encoding.command.inj hw
    exact ⟨hr, hp, hst⟩

/-- Settles O46: in DONE an accepted word other than INIT raises a fault, which leaves `H`, or only responds. -/
theorem digestIsStable : Obligations.DigestIsStable := by
  intro s t w rest hst hh h hw
  rw [step_accepts ((ready_iff s).2 (.inr (.inr (.inl hst)))) (.inl hh)] at h
  obtain ⟨c, rfl⟩ | ⟨r, rfl⟩ := acceptWord_in_done (s := { s with host := rest }) hst hw h
  · exact ⟨rfl, fun hf => absurd rfl hf⟩
  · exact ⟨rfl, fun _ => ⟨r, rfl⟩⟩

/-- Settles O40: fault entry of each kind with no cause before it, and the reset event. -/
theorem faultPriority : Obligations.FaultPriority := by
  intro s t w hc hr h
  have hraised : ∀ {c : Cause} {l : List HostEvent}, .next (raiseCommand c { s with host := l }) = (.next t : Result) →
      t.cause = c := by
    rintro c l ⟨⟩
    exact if_pos hc
  refine ⟨fun rest hh => ?_, fun rest hh => ?_⟩
  · rw [step_accepts hr (.inl hh)] at h
    have hr' : State.ready { s with host := rest } = true := hr
    refine ⟨fun hw => ?_, fun b hd hst => ?_, fun b hd hst hl => ?_, ?_⟩
    · rw [acceptWord_illegal hw hr'] at h
      exact hraised h
    · rw [acceptWord_ok hd, exec_push_outside_absorb hr' hst] at h
      exact hraised h
    · rw [acceptWord_ok hd, exec_push_overflow (s := { s with host := rest }) hst hl] at h
      exact hraised h
    · cases hd : decodeCommand w with
      | error e =>
        rw [acceptWord_error hr' hd] at h
        rw [hraised h]
        nofun
      | ok i =>
        rw [acceptWord_ok hd] at h
        refine exec_cause_ne_alignAssert (exec_next h) (fun hst => ?_) (by rw [hc]; nofun)
        rw [State.ready, show s.st = .cload from hst] at hr
        cases hr
  · rw [step_reset_head hh] at h
    cases h
    exact ⟨rfl, rfl, rfl⟩

end Sys2Proof.Proofs
end

section
/-! SUPPORT. The number of micro-operations until the engine is ready: each of them brings it one nearer
(70_reset_and_hazards.md R236; 41_sequencer.md R133). -/

namespace Sys2Proof.Machine

/-! ### The number, state by state -/

section
variable {s t : State}

theorem microOpsLeft_ready (hr : s.ready = true) : microOpsLeft s = 0 := by
  obtain hst | hst | hst | hst := (ready_iff s).1 hr <;> simp only [microOpsLeft, hst]

theorem microOpsLeft_pad80 (hst : s.st = .pad80) :
    microOpsLeft s = 1 + if s.fill.val = 63 then 66 + padzeroLeft 0 else padzeroLeft (s.fill.val + 1) := by
  simp only [microOpsLeft, hst]

theorem microOpsLeft_padzero (hst : s.st = .padzero) : microOpsLeft s = padzeroLeft s.fill.val := by
  simp only [microOpsLeft, hst]

theorem microOpsLeft_padlen (hst : s.st = .padlen) : microOpsLeft s = (8 - s.padk.val) + 66 := by
  simp only [microOpsLeft, hst]

theorem microOpsLeft_cload (hst : s.st = .cload) : microOpsLeft s = 66 + afterCaddLeft s := by
  simp only [microOpsLeft, hst]

theorem microOpsLeft_round (hst : s.st = .round) : microOpsLeft s = (64 - s.rnd.toNat) + 1 + afterCaddLeft s := by
  simp only [microOpsLeft, hst]

theorem microOpsLeft_cadd (hst : s.st = .cadd) : microOpsLeft s = 1 + afterCaddLeft s := by
  simp only [microOpsLeft, hst]

/-- The padding goes on after the block. -/
theorem afterCaddLeft_padding (hfin : s.fin = true) (hk : s.padk.val ≠ 8) : afterCaddLeft s = padzeroLeft 0 :=
  if_pos ⟨hfin, hk⟩

/-- The block is the last, or one of PUSH. -/
theorem afterCaddLeft_last (h : s.fin = false ∨ s.padk.val = 8) : afterCaddLeft s = 0 := by
  refine if_neg ?_
  rintro ⟨hfin, hk⟩
  obtain hf | h8 := h
  · rw [hfin] at hf
    cases hf
  · exact hk h8

theorem padzeroLeft_zero : padzeroLeft 0 = 131 := rfl

theorem padzeroLeft_le {f : Nat} (hf : f < 64) : padzeroLeft f ≤ 204 := by
  unfold padzeroLeft
  split <;> omega

/-- A zero byte that does not fill the block. -/
theorem padzeroLeft_succ {f : Nat} (h56 : f ≠ 56) (hf : f < 63) : padzeroLeft f = padzeroLeft (f + 1) + 1 := by
  unfold padzeroLeft
  split <;> split <;> omega

theorem afterCaddLeft_le : afterCaddLeft s ≤ 131 := by
  rw [afterCaddLeft, padzeroLeft_zero]
  split <;> omega

/-- The longest wait is PAD80 with `FILL = 56`: the marker, the rest of the block, and a whole block of padding. -/
theorem microOpsLeft_le (h : s.Inv) : microOpsLeft s ≤ 205 := by
  have hafter : afterCaddLeft s ≤ 131 := afterCaddLeft_le
  cases hst : s.st with
  | idle | absorb | done | fault =>
    rw [microOpsLeft_ready ((ready_iff s).2 (by simp [hst]))]
    omega
  | pad80 =>
    have hf : s.fill.val < 64 := h.fill_lt (by rw [hst]; rfl)
    rw [microOpsLeft_pad80 hst, padzeroLeft_zero]
    split
    · omega
    · have := padzeroLeft_le (f := s.fill.val + 1) (by omega)
      omega
  | padzero =>
    have := padzeroLeft_le (h.fill_lt (by rw [hst]; rfl))
    rw [microOpsLeft_padzero hst]
    omega
  | padlen => rw [microOpsLeft_padlen hst]; omega
  | cload => rw [microOpsLeft_cload hst]; omega
  | round => rw [microOpsLeft_round hst]; omega
  | cadd => rw [microOpsLeft_cadd hst]; omega

theorem microOpsLeft_eq_zero_iff : microOpsLeft s = 0 ↔ s.ready = true := by
  refine ⟨fun h0 => ?_, microOpsLeft_ready⟩
  cases hst : s.st with
  | idle | absorb | done | fault => exact (ready_iff s).2 (by simp [hst])
  | pad80 => rw [microOpsLeft_pad80 hst] at h0; omega
  | padzero =>
    rw [microOpsLeft_padzero hst, padzeroLeft] at h0
    split at h0 <;> omega
  | padlen => rw [microOpsLeft_padlen hst] at h0; omega
  | cload => rw [microOpsLeft_cload hst] at h0; omega
  | round => rw [microOpsLeft_round hst] at h0; omega
  | cadd => rw [microOpsLeft_cadd hst] at h0; omega

/-! ### One micro-operation -/

/-- The byte that fills a block of padding leaves the block and the padding after it. -/
theorem microOpsLeft_appended_full {b : Byte} {o : SeqState} (hf : s.fill.val < 64) (h64 : s.fill.val + 1 = 64) :
    microOpsLeft (appended b o s hf) = 66 + afterCaddLeft s :=
  microOpsLeft_cload (by rw [appended_st, if_pos h64])

/-- A byte of PAD80 or PADZERO leads on with the zero bytes. -/
theorem microOpsLeft_padded (hfin : s.fin = true) (hk : s.padk.val = 0) (hf : s.fill.val < 64) (b : Byte) :
    microOpsLeft (appended b .padzero s hf) =
      if s.fill.val = 63 then 66 + padzeroLeft 0 else padzeroLeft (s.fill.val + 1) := by
  split
  · rw [microOpsLeft_appended_full hf (by omega), afterCaddLeft_padding hfin (by omega)]
  · exact microOpsLeft_padzero (by rw [appended_st, if_neg (by omega)])

theorem microOpsLeft_padlen_step (h : s.Inv) (hst : s.st = .padlen) (hk : s.padk.val < 8) (hf : s.fill.val < 64)
    (b : Byte) : microOpsLeft s = microOpsLeft (appended b .padlen (lengthByteCounted s hk) hf) + 1 := by
  obtain ⟨-, -, hfill⟩ := h.positionAt hst
  rw [microOpsLeft_padlen hst]
  by_cases h64 : s.fill.val + 1 = 64
  · have h8 : s.padk.val + 1 = 8 := by omega
    rw [microOpsLeft_appended_full (s := lengthByteCounted s hk) hf h64, afterCaddLeft_last (.inr h8)]
    omega
  · have hnext : (appended b .padlen (lengthByteCounted s hk) hf).st = .padlen := if_neg h64
    rw [microOpsLeft_padlen hnext]
    show _ = (8 - (s.padk.val + 1)) + 66 + 1
    omega

theorem microOpsLeft_round_step (hst : s.st = .round) (m : Word) :
    microOpsLeft s = microOpsLeft (rounded m s) + 1 := by
  have hlt : s.rnd.toNat < 64 := s.rnd.isLt
  have hafter : afterCaddLeft (rounded m s) = afterCaddLeft s := rfl
  rw [microOpsLeft_round hst]
  by_cases h63 : s.rnd.toNat = 63
  · rw [microOpsLeft_cadd (by rw [rounded_st, if_pos h63]), hafter]
    omega
  · have hnext : (s.rnd + 1).toNat = s.rnd.toNat + 1 :=
      BitVec.toNat_add_of_lt (show s.rnd.toNat + 1 < 64 by omega)
    rw [microOpsLeft_round (by rw [rounded_st, if_neg h63]), hafter, rounded_rnd, if_pos (by omega), hnext]
    omega

theorem microOpsLeft_cadd_step (hst : s.st = .cadd) :
    microOpsLeft s = microOpsLeft { s with h := s.h.add s.w, fill := 0, st := afterBlock s } + 1 := by
  rw [microOpsLeft_cadd hst, afterBlock_eq]
  by_cases hfin : s.fin = false
  · rw [if_pos hfin, microOpsLeft_ready (s := { s with h := _, fill := 0, st := _ }) rfl,
      afterCaddLeft_last (.inl hfin)]
  · rw [if_neg hfin]
    by_cases h8 : s.padk.val = 8
    · rw [if_pos h8, microOpsLeft_ready (s := { s with h := _, fill := 0, st := _ }) rfl,
      afterCaddLeft_last (.inr h8)]
    · rw [if_neg h8, microOpsLeft_padzero rfl, afterCaddLeft_padding (by simpa using hfin) h8, Nat.add_comm]
      rfl

/-- Every micro-operation brings the engine one nearer to a ready state. -/
theorem microOpsLeft_exec {i : Instr} (hc : i.isCommand = false) (hx : ExecNext i s t) (h : s.Inv) :
    microOpsLeft s = microOpsLeft t + 1 := by
  cases hx with
  | waits hcmd | raises _ _ hcmd => rw [hc] at hcmd; cases hcmd
  | nop | rds | rdb | rdh | init | push | final => cases hc
  | pad80 hst hf =>
    obtain ⟨hfin, hk, -⟩ := h.positionAt hst
    rw [microOpsLeft_pad80 hst, microOpsLeft_padded hfin hk hf, Nat.add_comm]
  | padzeroEnd hst hf =>
    have hk : s.padk.val = 0 := h.padzero hst
    rw [microOpsLeft_padzero hst, hf, microOpsLeft_padlen (s := { s with st := _ }) rfl]
    show 75 = 8 - s.padk.val + 66 + 1
    omega
  | padzero hst hn hf =>
    obtain ⟨hfin, hk, -⟩ := h.positionAt hst
    rw [microOpsLeft_padzero hst, microOpsLeft_padded hfin hk hf]
    split
    · next h63 => rw [h63]; rfl
    · next h63 => exact padzeroLeft_succ hn (by omega)
  | padlen hst hk hf => exact microOpsLeft_padlen_step h hst hk hf _
  | cload hst hf =>
    rw [microOpsLeft_cload hst, microOpsLeft_round (s := { s with w := _, rnd := 0, st := _ }) rfl]
    show 66 + afterCaddLeft s = 64 - 0 + 1 + afterCaddLeft s + 1
    omega
  | cloadAssert hst hf => exact absurd (h.positionAt hst).1 hf
  | round hst _ _ => exact microOpsLeft_round_step hst _
  | cadd hst => exact microOpsLeft_cadd_step hst

/-- What a micro-operation leaves alone in a state with the invariant: the registers of the commands, the script and the
responses. -/
def MicroFrame (s t : State) : Prop :=
  t.len = s.len ∧ t.fin = s.fin ∧ t.cause = s.cause ∧ t.host = s.host ∧ t.rsp = s.rsp

theorem microFrame_refl (s : State) : MicroFrame s s := ⟨rfl, rfl, rfl, rfl, rfl⟩

theorem MicroFrame.trans {u : State} (h : MicroFrame s t) (h' : MicroFrame t u) : MicroFrame s u := by
  obtain ⟨hl, hf, hc, hh, hr⟩ := h
  obtain ⟨hl', hf', hc', hh', hr'⟩ := h'
  exact ⟨hl'.trans hl, hf'.trans hf, hc'.trans hc, hh'.trans hh, hr'.trans hr⟩

theorem microFrame_exec {i : Instr} (hc : i.isCommand = false) (hx : ExecNext i s t) (h : s.Inv) : MicroFrame s t := by
  cases hx with
  | waits hcmd | raises _ _ hcmd => rw [hc] at hcmd; cases hcmd
  | nop | rds | rdb | rdh | init | push | final => cases hc
  | cloadAssert hst hf => exact absurd (h.positionAt hst).1 hf
  | pad80 | padzeroEnd | padzero | padlen | cload | round | cadd => exact ⟨rfl, rfl, rfl, rfl, rfl⟩

/-! ### A busy period -/

theorem runSteps_step {n : Nat} (h : step s = .next t) : runSteps (n + 1) s = runSteps n t := by
  rw [Nat.add_comm, runSteps_add 1 n (runSteps_one h)]

/-- With nothing presented, or a word held, the engine is ready after as many steps as the number says. -/
theorem runSteps_microOpsLeft (h : s.Inv) (hh : resetAsserted s.host = false) (hw : waiting s.host = s.host) :
    ∃ t, runSteps (microOpsLeft s) s = .next t ∧ t.ready = true ∧ t.Inv ∧ MicroFrame s t := by
  generalize hn : microOpsLeft s = n
  induction n generalizing s with
  | zero => exact ⟨s, rfl, microOpsLeft_eq_zero_iff.1 hn, h, microFrame_refl s⟩
  | succ n ih =>
    have hb : s.ready = false := by
      by_contra hr
      rw [microOpsLeft_ready (by simpa using hr)] at hn
      cases hn
    have hc := enabledMicro_isCommand s
    obtain ⟨u, hu⟩ := exec_enabledMicro_next h hb
    have hx := exec_next hu
    have hframe := microFrame_exec hc hx h
    have hhost : u.host = s.host := exec_host hx
    have hleft : microOpsLeft u = n := by
      have := microOpsLeft_exec hc hx h
      omega
    obtain ⟨t, hrun, hr, ht, hframe'⟩ := ih (inv_exec hx h) (by rwa [hhost]) (by rwa [hhost]) hleft
    refine ⟨t, ?_, hr, ht, hframe.trans hframe'⟩
    rw [runSteps_step ((step_busy_waiting hh hw hb).trans hu), hrun]

/-- The steps to a ready state with nothing presented are those of the big step, which stops there. -/
theorem runToReady_of_runSteps {k n : Nat} (hl : s.host = []) (hk : k ≤ n) (hrun : runSteps k s = .next t)
    (hr : t.ready = true) : runToReady n s = .next t := by
  induction k generalizing s n with
  | zero =>
    cases hrun
    exact runToReady_ready n hr
  | succ k ih =>
    cases hs : s.ready with
    | true =>
      rw [runSteps_step (step_ready_empty_script hs hl)] at hrun
      exact ih hl (by omega) hrun
    | false =>
      obtain ⟨n, rfl⟩ : ∃ n', n = n' + 1 := ⟨n - 1, by omega⟩
      have hstep := step_busy_waiting (by rw [hl]; rfl) (by rw [hl]; rfl) hs
      cases hu : exec (enabledMicro s) s with
      | next u =>
        rw [runSteps_step (hstep.trans hu)] at hrun
        rw [runToReady_busy n hs hu]
        exact ih ((exec_host (exec_next hu)).trans hl) (by omega) hrun
      | fault f => rw [runSteps, hstep, hu] at hrun; cases hrun
      | refused r => rw [runSteps, hstep, hu] at hrun; cases hrun

/-! ### Runs of a program -/

/-- A ready engine answers a held word. -/
theorem step_held_word (h : s.Inv) (hr : s.ready = true) {w : CommandWord} {rest : List HostEvent}
    (hh : s.host = .hold w :: rest) :
    ∃ t, step s = .next t ∧ t.Inv ∧ t.host = rest ∧ t.rsp.length = s.rsp.length + 1 := by
  obtain ⟨t, ht⟩ := acceptWord_next (s := { s with host := rest }) (inv_host h rest) hr w
  obtain ⟨hhost, r, hrsp⟩ := acceptWord_responds (s := { s with host := rest }) hr ht
  have hstep := (step_accepts hr (.inl hh)).trans ht
  exact ⟨t, hstep, inv_step (step_next hstep) h, hhost, by rw [hrsp, List.length_append, List.length_singleton]⟩

/-- A program ends: by induction over its words, a busy period and the acceptance of a word at a time. -/
theorem runSteps_program (h : s.Inv) {ws : List CommandWord} (hh : s.host = ws.map .hold) :
    ∃ k t, k ≤ 205 + 206 * ws.length ∧ runSteps k s = .next t ∧ t.host = [] ∧ t.ready = true ∧
      t.rsp.length = s.rsp.length + ws.length := by
  induction ws generalizing s with
  | nil =>
    obtain ⟨t, hrun, hr, -, -, -, -, hhost, hrsp⟩ := runSteps_microOpsLeft h (by rw [hh]; rfl) (by rw [hh]; rfl)
    exact ⟨_, t, microOpsLeft_le h, hrun, hhost.trans hh, hr, by rw [hrsp]; rfl⟩
  | cons w ws ih =>
    obtain ⟨u, hrun, hr, hu, -, -, -, hhost, hrsp⟩ := runSteps_microOpsLeft h (by rw [hh]; rfl) (by rw [hh]; rfl)
    obtain ⟨v, hv, hvinv, hvhost, hvrsp⟩ := step_held_word hu hr (hhost.trans hh)
    obtain ⟨k, t, hk, hrun', hthost, htr, htrsp⟩ := ih hvinv hvhost
    have hle := microOpsLeft_le h
    refine ⟨microOpsLeft s + (k + 1), t, by rw [List.length_cons]; omega, ?_, hthost, htr, ?_⟩
    · rw [runSteps_add _ _ hrun, runSteps_step hv, hrun']
    · rw [htrsp, hvrsp, hrsp, List.length_cons]
      omega

/-! ### FINAL -/

/-- The number of micro-operations after FINAL in terms of the zero bytes (70_reset_and_hazards.md R236). -/
theorem microOpsLeft_final {len : Nat} (hst : s.st = .pad80) (hf : s.fill.val = len % 64) :
    microOpsLeft s = 1 + (zeroCount len + 1) + 8 + 66 * (if len % 64 ≤ 55 then 1 else 2) := by
  rw [microOpsLeft_pad80 hst, hf, padzeroLeft_zero, padzeroLeft, zeroCount]
  repeat' split
  all_goals omega

/-- A ready engine that has FINAL behind it and no cause is in DONE. -/
theorem done_of_ready_fin (h : s.Inv) (hr : s.ready = true) (hfin : s.fin = true) (hc : s.cause = .none) :
    s.st = .done := by
  obtain hst | hst | hst | hst := (ready_iff s).1 hr
  · obtain ⟨-, -, hnot, -⟩ := h.idle hst
    exact nomatch hfin.symm.trans hnot
  · obtain ⟨hnot, -⟩ := h.absorb hst
    exact nomatch hfin.symm.trans hnot
  · exact hst
  · exact absurd hc (h.fault.1 hst)

end

end Sys2Proof.Machine

namespace Sys2Proof.Proofs

open Sys2Proof.Machine

/-- Settles O54: the bound and the zero state by state, the decrease by each micro-operation, and induction on the
number. -/
theorem busyPeriodsEnd : Obligations.BusyPeriodsEnd := by
  refine fun s h => ⟨microOpsLeft_le h, microOpsLeft_eq_zero_iff, fun hb hh => ?_, fun hh hw => ?_⟩
  · have hinv : State.Inv { s with host := waiting s.host } := inv_host h _
    obtain ⟨t, ht⟩ := exec_enabledMicro_next hinv hb
    have hleft := microOpsLeft_exec (enabledMicro_isCommand _) (exec_next ht) hinv
    exact ⟨t, (step_busy hh hb).trans ht, hleft⟩
  · obtain ⟨t, hrun, hr, -⟩ := runSteps_microOpsLeft h hh hw
    exact ⟨t, hrun, hr⟩

/-- Settles O55: by induction over the words. -/
theorem runsEnd : Obligations.RunsEnd := by
  intro s ws h hh
  obtain ⟨k, t, hk, hrun, hhost, hr, hrsp⟩ := runSteps_program h hh
  have hover : t.over = true := by rw [State.over, hhost, hr]; rfl
  refine ⟨k, t, hk, hrun, hover, ?_, hrsp⟩
  rw [State.good, State.faulted, hover]
  cases t.faultOut <;> simp

/-- Settles O56: the busy period that FINAL starts, which keeps `FIN`, `CAUSE` and `LEN`. -/
theorem finalEndsInDone : Obligations.FinalEndsInDone := by
  intro s h hst hl
  obtain ⟨-, -, hfill⟩ := h.absorb hst
  have hinv := inv_final h hst
  obtain ⟨u, hrun, hr, hu, hlen, hfin, hcause, -⟩ :=
    runSteps_microOpsLeft hinv (show resetAsserted s.host = false by rw [hl]; rfl)
      (show waiting s.host = s.host by rw [hl]; rfl)
  have hc : u.cause = .none := hcause.trans (h.cause_none (by rw [hst]; nofun))
  exact ⟨_, u, exec_final_absorb hst, microOpsLeft_final rfl hfill, hrun, done_of_ready_fin hu hr hfin hc, hc, hlen⟩

/-- Settles O57: the steps to the ready state after the word are at most 205. -/
theorem bigStepIsSmallSteps : Obligations.BigStepIsSmallSteps := by
  intro s w h hr hl
  obtain ⟨u, hu⟩ := acceptWord_next h hr w
  have hstep : step { s with host := [.hold w] } = .next u := by
    rw [step_accepts (s := { s with host := [.hold w] }) hr (.inl rfl), ← hu, ← hl]
  have huhost : u.host = [] := (acceptWord_responds hr hu).1.trans hl
  have huinv : u.Inv := inv_step (step_next hstep) (inv_host h _)
  obtain ⟨t, hrun, ht, -⟩ := runSteps_microOpsLeft huinv (by rw [huhost]; rfl) (by rw [huhost]; rfl)
  have hk := microOpsLeft_le huinv
  refine ⟨microOpsLeft u, t, hk, ?_, ht, ?_⟩
  · rw [bigStep_ready hr hu, runToReady_of_runSteps huhost hk hrun ht]
  · rw [runSteps_step hstep, hrun]

end Sys2Proof.Proofs
end

section
/-! SUPPORT. The number of zero bytes and the size of the padded message (40_padding.md R100, R101), and the length of
the digest (43_accumulator_serializer.md R183, R185). -/

namespace Sys2Proof.Machine

theorem zeroCount_lt (len : Nat) : zeroCount len < 64 := Nat.mod_lt _ (by decide)

/-- `z(L) = (55 - L) mod 64` on the integers. -/
theorem zeroCount_eq_intMod (len : Nat) : (zeroCount len : Int) = (55 - (len : Int)) % 64 := by
  unfold zeroCount
  omega

theorem zeroCount_reaches_56 (len : Nat) : (len + 1 + zeroCount len) % 64 = 56 := by
  unfold zeroCount
  omega

/-- No smaller number of zero bytes reaches 56. -/
theorem zeroCount_least {len z : Nat} (hz : z < zeroCount len) : (len + 1 + z) % 64 ≠ 56 := by
  unfold zeroCount at hz
  omega

theorem length_pad (m : List Byte) : (pad m).length = m.length + 1 + zeroCount m.length + 8 := by
  simp only [pad, List.length_append, List.length_singleton, List.length_replicate, length_lenField]

/-- `Pad` and its end are whole blocks. -/
theorem length_pad_eq_blocks (m : List Byte) : (pad m).length = 64 * blockCount m.length := by
  rw [length_pad, blockCount, zeroCount]
  omega

theorem length_hexOf_serialize (h : Quad) : (hexOf (serialize h)).length = 32 := by
  rw [hexOf_serialize, List.length_map, List.length_range]

/-- A hex character is one of 0 to 9 or a to f (43_accumulator_serializer.md R187). -/
theorem hexCode_range (n : BitVec 4) :
    (0x30 ≤ (hexCode n).toNat ∧ (hexCode n).toNat ≤ 0x39) ∨ (0x61 ≤ (hexCode n).toNat ∧ (hexCode n).toNat ≤ 0x66) := by
  have hn := n.isLt
  rw [toNat_hexCode]
  split <;> omega

end Sys2Proof.Machine

namespace Sys2Proof.Proofs

open Sys2Proof.Machine

/-- Settles O48: the form of `Pad` and the arithmetic of `z(L)`. -/
theorem paddingAddsFewestZeros : Obligations.PaddingAddsFewestZeros :=
  fun m => ⟨fun hm => by rw [pad, lenField_short hm], rfl, zeroCount_lt _, zeroCount_eq_intMod _,
    zeroCount_reaches_56 _, fun _ hz => zeroCount_least hz⟩

/-- Settles O49: the sum of the four parts, with `z(L)` at most 63. -/
theorem paddedLength : Obligations.PaddedLength := by
  intro m
  have hlen := length_pad m
  have hz := zeroCount_lt m.length
  exact ⟨hlen, length_pad_eq_blocks m, Nat.le_add_left 1 _, by omega, by omega⟩

/-- Settles O37: the digest is a `Serialize`, and each character of its hex form a `hexchar`. -/
theorem digestHasSixteenBytes : Obligations.DigestHasSixteenBytes := by
  refine fun m => ⟨length_serialize _, length_hexOf_serialize _, fun c hc => ?_⟩
  rw [md5hex, md5, hexOf_serialize, List.mem_map] at hc
  obtain ⟨j, -, rfl⟩ := hc
  exact hexCode_range _

end Sys2Proof.Proofs
end

section
/-! SUPPORT. The message-word schedule of each phase is a bijection (42_round_datapath.md R157). -/

namespace Sys2Proof.Machine

/-- The schedule by the position within the phase. -/
theorem schedOf_in_phase {i : Nat} (hi : i < 16) :
    schedOf i = i ∧ schedOf (16 + i) = (5 * i + 1) % 16 ∧ schedOf (32 + i) = (3 * i + 5) % 16 ∧
      schedOf (48 + i) = (7 * i) % 16 := by
  unfold schedOf
  refine ⟨if_pos hi, ?_, ?_, ?_⟩ <;> repeat' split
  all_goals omega

/-- Each phase takes every value once: its schedule is linear, and 13, 11 and 7 undo the factors 5, 3, 7 modulo 16. -/
theorem schedOf_bijective {p j : Nat} (hp : p < 4) (hj : j < 16) :
    ∃ k, k < 16 ∧ schedOf (16 * p + k) = j ∧ ∀ k', k' < 16 → schedOf (16 * p + k') = j → k' = k := by
  have hphase {k : Nat} (hk : k < 16) := schedOf_in_phase hk
  obtain rfl | rfl | rfl | rfl : p = 0 ∨ p = 1 ∨ p = 2 ∨ p = 3 := by omega
  · refine ⟨j, hj, by rw [Nat.mul_zero, Nat.zero_add, (hphase hj).1], fun k hk h => ?_⟩
    rwa [Nat.mul_zero, Nat.zero_add, (hphase hk).1] at h
  · have hk : (13 * j + 3) % 16 < 16 := Nat.mod_lt _ (by decide)
    refine ⟨_, hk, by rw [(hphase hk).2.1]; omega, fun k hk' h => ?_⟩
    rw [(hphase hk').2.1] at h
    omega
  · have hk : (11 * j + 9) % 16 < 16 := Nat.mod_lt _ (by decide)
    refine ⟨_, hk, by rw [(hphase hk).2.2.1]; omega, fun k hk' h => ?_⟩
    rw [(hphase hk').2.2.1] at h
    omega
  · have hk : 7 * j % 16 < 16 := Nat.mod_lt _ (by decide)
    refine ⟨_, hk, by rw [(hphase hk).2.2.2]; omega, fun k hk' h => ?_⟩
    rw [(hphase hk').2.2.2] at h
    omega

end Sys2Proof.Machine

namespace Sys2Proof.Proofs

open Sys2Proof.Machine

/-- Settles O33: the table evaluated, and the phases as linear functions modulo 16. -/
theorem scheduleUsesEachWordOncePerPhase : Obligations.ScheduleUsesEachWordOncePerPhase :=
  ⟨by decide, fun _ hp _ hj => schedOf_bijective hp hj, fun _ hi => schedOf_in_phase hi⟩

end Sys2Proof.Proofs
end

section
/-! SUPPORT. The words of the pseudo-instructions (30_encoding.md R86, R87). -/

namespace Sys2Proof

/-- A command word as a number: the opcode above twelve bits, the operand below eight (30_encoding.md R71). -/
theorem commandWord_ofNat (op : BitVec 4) {n : Nat} (hn : n < 256) :
    commandWord op (BitVec.ofNat 8 n) = BitVec.ofNat 16 (op.toNat * 0x1000 + n) := by
  apply BitVec.eq_of_toNat_eq
  have hop := op.isLt
  simp only [commandWord, Machine.toNat_append_eq_add, BitVec.ofNat_eq_ofNat, BitVec.toNat_ofNat]
  omega

namespace Machine

/-- Commands that have words are presented word by word. -/
theorem presentAll_map {α : Type} {f : α → Instr} {g : α → CommandWord} {l : List α}
    (h : ∀ a ∈ l, wordOf (f a) = some (g a)) : presentAll (l.map f) = l.map fun a => .hold (g a) := by
  induction l with
  | nil => rfl
  | cons a l ih =>
    obtain ⟨ha, hl⟩ := List.forall_mem_cons.1 h
    rw [List.map_cons, List.map_cons, ← ih hl, presentAll, List.filterMap_cons, ha]
    rfl

theorem presentAll_append (is js : List Instr) : presentAll (is ++ js) = presentAll is ++ presentAll js :=
  List.filterMap_append

/-- A character that PUSHS takes is an ASCII character. -/
theorem isTextChar_lt {c : Char} (h : isTextChar c = true) : c.toNat < 256 := by
  simp only [isTextChar, Bool.and_eq_true, decide_eq_true_eq] at h
  omega

theorem presentAll_pushs {text : List Char} (h : text.all isTextChar = true) :
    presentAll (pushsExpansion text) = text.map fun c => .hold (BitVec.ofNat 16 (0x2000 + c.toNat)) :=
  presentAll_map fun c hc => congrArg some (commandWord_ofNat 2 (isTextChar_lt (List.all_eq_true.1 h c hc)))

theorem presentAll_pushn (n : Nat) (b : Byte) :
    presentAll (pushnExpansion n b) = List.replicate n (.hold (BitVec.ofNat 16 (0x2000 + b.toNat))) := by
  have hword : wordOf (.push b) = some (BitVec.ofNat 16 (0x2000 + b.toNat)) := by
    have h := commandWord_ofNat 2 b.isLt
    rw [BitVec.ofNat_toNat, BitVec.setWidth_eq] at h
    exact congrArg some h
  have hmap := presentAll_map (l := List.replicate n ()) (f := fun _ => .push b) fun _ _ => hword
  rwa [List.map_replicate, List.map_replicate] at hmap

theorem presentAll_digest :
    presentAll digestExpansion = (List.range 16).map fun i => .hold (BitVec.ofNat 16 (0x4000 + i)) :=
  presentAll_map fun i hi => congrArg some (commandWord_ofNat 4 (by have := List.mem_range.1 hi; omega))

theorem presentAll_hexdigest :
    presentAll hexdigestExpansion = (List.range 32).map fun j => .hold (BitVec.ofNat 16 (0x5000 + j)) :=
  presentAll_map fun j hj => congrArg some (commandWord_ofNat 5 (by have := List.mem_range.1 hj; omega))

end Machine

end Sys2Proof

namespace Sys2Proof.Proofs

open Sys2Proof.Machine

/-- Settles O58: each expansion is a list of commands, presented word by word. -/
theorem pseudoInstructionsExpand : Obligations.PseudoInstructionsExpand := by
  refine ⟨fun text h => ⟨presentAll_pushs h, ?_⟩, presentAll_pushn, presentAll_digest, presentAll_hexdigest⟩
  rw [expandLine, hashExpansion, presentAll_append, presentAll_append, presentAll_append, presentAll_pushs h,
    presentAll_hexdigest]
  rfl

end Sys2Proof.Proofs
end

section
/-! SUPPORT. Bytes appended one after another: the whole blocks are in the hash state and the tail is in the buffer
(41_sequencer.md R123, R126, R128). -/

namespace Sys2Proof.Machine

/-- The bytes `p` have been appended since the hash state was `IV`: what the padding keeps of `Absorbed`. -/
structure Took (s : State) (p : List Byte) : Prop where
  fill : s.fill.val = p.length % 64
  tail : ∀ i, i < p.length % 64 → readByte s.buf i = p[64 * (p.length / 64) + i]?
  hash : s.h = compressBlocks p (p.length / 64)

theorem length_snoc (p : List Byte) (b : Byte) : (p ++ [b]).length = p.length + 1 := by
  rw [List.length_append, List.length_singleton]

section
variable {s : State} {p : List Byte}

theorem Took.fill_lt (h : Took s p) : s.fill.val < 64 := by
  rw [h.fill]
  exact Nat.mod_lt _ (by decide)

/-- With the next byte appended, the buffer holds the tail of the longer sequence. -/
theorem Took.tail_snoc (h : Took s p) (b : Byte) {i : Nat} (hi : i < p.length % 64 + 1) :
    readByte (writeByte s.buf s.fill.val b) i = (p ++ [b])[64 * (p.length / 64) + i]? := by
  have hsplit := Nat.div_add_mod p.length 64
  rw [readByte_writeByte, h.fill]
  split
  · next hlast => rw [hlast, hsplit, List.getElem?_concat_length]
  · next hne => rw [h.tail i (by omega), List.getElem?_append_left (by omega)]

/-- A byte that does not fill the block. -/
theorem Took.appended (h : Took s p) (b : Byte) (o : SeqState) (hf : s.fill.val < 64) (h64 : s.fill.val + 1 ≠ 64) :
    Took (appended b o s hf) (p ++ [b]) := by
  have hfill := h.fill
  have hdiv : (p ++ [b]).length / 64 = p.length / 64 := by rw [length_snoc]; omega
  have hmod : (p ++ [b]).length % 64 = p.length % 64 + 1 := by rw [length_snoc]; omega
  refine ⟨by rw [appended_fill, hmod, hfill], fun i hi => ?_, ?_⟩
  · rw [hdiv]
    exact h.tail_snoc b (hmod ▸ hi)
  · rw [hdiv, compressBlocks_append (by omega)]
    exact h.hash

/-- The byte that fills the block. -/
theorem Took.holdsBlock (h : Took s p) (b : Byte) (h64 : s.fill.val + 1 = 64) :
    HoldsBlock (writeByte s.buf s.fill.val b) (blockAt (p ++ [b]) (p.length / 64)) := by
  have hfill := h.fill
  refine ⟨?_, fun i hi => ?_⟩
  · rw [blockAt, List.length_take, List.length_drop, length_snoc]
    omega
  · rw [blockAt, List.getElem?_take_of_lt hi, List.getElem?_drop]
    exact h.tail_snoc b (by omega)

/-! The fields of the state after CADD, by unfolding it alone: comparing the whole state would evaluate the
rounds. -/

section
variable {block : List Byte}

theorem blockDone_h : (Machine.blockDone block s).h = compress s.h block := by rw [Machine.blockDone]

theorem blockDone_fill : (Machine.blockDone block s).fill.val = 0 := by rw [Machine.blockDone]; rfl

theorem blockDone_padk : (Machine.blockDone block s).padk = s.padk := by rw [Machine.blockDone]

theorem blockDone_st : (Machine.blockDone block s).st = afterBlock s := by rw [Machine.blockDone, afterBlock_eq]

theorem microFrame_blockDone : MicroFrame s (Machine.blockDone block s) := by
  rw [Machine.blockDone]
  exact ⟨rfl, rfl, rfl, rfl, rfl⟩
end

theorem microFrame_appended (b : Byte) (o : SeqState) (hf : s.fill.val < 64) :
    MicroFrame s (Machine.appended b o s hf) :=
  ⟨rfl, rfl, rfl, rfl, rfl⟩

/-- With the block compressed, no byte is left in the buffer. -/
theorem Took.blockDone (h : Took s p) (b : Byte) (o : SeqState) (hf : s.fill.val < 64) (h64 : s.fill.val + 1 = 64) :
    Took (blockDone (blockAt (p ++ [b]) (p.length / 64)) (Machine.appended b o s hf)) (p ++ [b]) := by
  have hfill := h.fill
  have hdiv : (p ++ [b]).length / 64 = p.length / 64 + 1 := by rw [length_snoc]; omega
  have hmod : (p ++ [b]).length % 64 = 0 := by rw [length_snoc]; omega
  refine ⟨by rw [blockDone_fill, hmod], fun i hi => ?_, ?_⟩
  · rw [hmod] at hi
    cases hi
  · rw [hdiv, compressBlocks, compressBlocks_append (by omega), ← h.hash, blockDone_h, appended_h]

/-- The 66 micro-operations of a block (41_sequencer.md R128). -/
theorem runSteps_blockDone {block : List Byte} (hst : s.st = .cload) (hf : s.fill.val = 64)
    (hb : HoldsBlock s.buf block) (hh : resetAsserted s.host = false) (hw : waiting s.host = s.host) :
    runSteps 66 s = .next (blockDone block s) :=
  runSteps_succ (runSteps_roundsDone hst hf hb hh hw (Nat.le_refl 64)) (step_roundsDone_last hh hw)

/-- After an append the engine is, at once or after a block, in the next state with the longer sequence taken. -/
theorem Took.settles (h : Took s p) (b : Byte) (o : SeqState) (hf : s.fill.val < 64)
    (hh : resetAsserted s.host = false) (hw : waiting s.host = s.host) :
    ∃ k t, k ≤ 66 ∧ runSteps k (Machine.appended b o s hf) = .next t ∧ Took t (p ++ [b]) ∧ MicroFrame s t ∧
      t.padk = s.padk ∧ t.st = if s.fill.val + 1 = 64 then afterBlock s else o := by
  by_cases h64 : s.fill.val + 1 = 64
  · have hst : (Machine.appended b o s hf).st = .cload := if_pos h64
    have hafter : afterBlock (Machine.appended b o s hf) = afterBlock s := rfl
    exact ⟨66, _, Nat.le_refl _, runSteps_blockDone hst h64 (h.holdsBlock b h64) hh hw, h.blockDone b o hf h64,
      (microFrame_appended b o hf).trans microFrame_blockDone, by rw [blockDone_padk, appended_padk],
      by rw [blockDone_st, hafter, if_pos h64]⟩
  · exact ⟨0, _, Nat.zero_le _, rfl, h.appended b o hf h64, microFrame_appended b o hf, appended_padk,
      by rw [appended_st, if_neg h64, if_neg h64]⟩

end

/-! ### Messages -/

section
variable {s : State} {m : List Byte}

theorem Absorbed.took (h : Absorbed s m) : Took s m := ⟨h.fill, h.tail, h.hash⟩

theorem Absorbed.ready (h : Absorbed s m) : s.ready = true := (ready_iff s).2 (.inr (.inl h.st))

/-- INIT starts the empty message. -/
theorem absorbed_initialised (s : State) : Absorbed (initialised s) [] where
  st := rfl
  fin := rfl
  padk := rfl
  cause := rfl
  short := Nat.zero_le _
  len := rfl
  fill := rfl
  tail := nofun
  hash := rfl

/-- `Absorbed` does not look at the script. -/
theorem Absorbed.with_host (h : Absorbed s m) (l : List HostEvent) : Absorbed { s with host := l } m :=
  { h with }

/-- PUSH and the block it may complete extend the message by the byte. -/
theorem Absorbed.push (h : Absorbed s m) (hm : m.length < Config.maxLength) (b : Byte)
    (hh : resetAsserted s.host = false) (hw : waiting s.host = s.host) :
    ∃ u k t, exec (.push b) s = .next u ∧ k ≤ 66 ∧ runSteps k u = .next t ∧ Absorbed t (m ++ [b]) ∧
      t.host = s.host := by
  have hl : s.len.toNat < Config.maxLength := h.len ▸ hm
  have hcounted : Took (pushCounted s) m := ⟨h.fill, h.tail, h.hash⟩
  obtain ⟨k, t, hk, hrun, ht, ⟨hlen, hfin, hcause, hhost, -⟩, hpadk, hst⟩ :=
    hcounted.settles b .absorb hcounted.fill_lt hh hw
  have hfin' : t.fin = false := hfin.trans h.fin
  have hafter : afterBlock (pushCounted s) = .absorb := (afterBlock_eq _).trans (if_pos h.fin)
  refine ⟨_, k, t, exec_push_appends h.st hl hcounted.fill_lt b, hk, hrun, ?_, hhost⟩
  exact
    { st := by rw [hst, hafter, ite_self]
      fin := hfin'
      padk := by rw [hpadk]; exact h.padk
      cause := hcause.trans h.cause
      short := by rw [length_snoc]; exact hm
      len := by rw [hlen, pushCounted_len hl, h.len, length_snoc]
      fill := ht.fill
      tail := ht.tail
      hash := ht.hash }

end

end Sys2Proof.Machine

namespace Sys2Proof.Proofs

open Sys2Proof.Machine

/-- Settles O52: INIT's state, and the steps of PUSH up to the ready state, which are the big step. -/
theorem pushExtendsTheMessage : Obligations.PushExtendsTheMessage := by
  refine ⟨fun s hr => ⟨_, exec_init hr, absorbed_initialised s⟩, fun s m b h hm hl => ?_⟩
  obtain ⟨u, k, t, hu, hk, hrun, ht, -⟩ := h.push hm b (by rw [hl]; rfl) (by rw [hl]; rfl)
  have hword : acceptWord (0x2000 + b.setWidth 16) s = .next u := (acceptWord_ok (decodeCommand_pushWord b)).trans hu
  have huhost : u.host = [] := (exec_host (exec_next hu)).trans hl
  exact ⟨t, by rw [bigStep_ready h.ready hword, runToReady_of_runSteps huhost (by omega) hrun ht.ready], ht⟩

end Sys2Proof.Proofs
end

section
/-! SUPPORT. The padding in the engine: after FINAL it appends exactly the bytes of `Pad` (40_padding.md R100, R105 to
R107). -/

namespace Sys2Proof.Machine

/-- A number of steps leads from `s` to `t`. -/
def Reaches (s t : State) : Prop := ∃ k, runSteps k s = .next t

theorem Reaches.refl (s : State) : Reaches s s := ⟨0, rfl⟩

theorem Reaches.trans {s t u : State} (h : Reaches s t) (h' : Reaches t u) : Reaches s u := by
  obtain ⟨j, hj⟩ := h
  obtain ⟨k, hk⟩ := h'
  exact ⟨j + k, (runSteps_add j k hj).trans hk⟩

theorem Reaches.of_step {s t : State} (h : step s = .next t) : Reaches s t := ⟨1, runSteps_one h⟩

/-- FINAL's padding of a message of `len` bytes, with nothing presented: the bytes `p` of `Pad` are taken, `k` of them
length bytes. -/
structure PaddingTo (len : Nat) (p : List Byte) (k : Nat) (s : State) : Prop where
  took : Took s p
  len : s.len.toNat = len
  fin : s.fin = true
  cause : s.cause = .none
  host : s.host = []
  padk : s.padk.val = k

section
variable {s : State} {p : List Byte} {len k : Nat}

theorem PaddingTo.step_busy (h : PaddingTo len p k s) (hb : s.ready = false) : step s = exec (enabledMicro s) s :=
  step_busy_waiting (by rw [h.host]; rfl) (by rw [h.host]; rfl) hb

/-- A byte of padding, with the block it may complete. -/
theorem PaddingTo.append (h : PaddingTo len p k s) (b : Byte) (o : SeqState) (hf : s.fill.val < 64) :
    ∃ t, Reaches (appended b o s hf) t ∧ PaddingTo len (p ++ [b]) k t ∧
      t.st = if s.fill.val + 1 = 64 then (if k = 8 then .done else .padzero) else o := by
  obtain ⟨n, t, -, hrun, ht, ⟨hlen, hfin, hcause, hhost, -⟩, hpadk, hst⟩ :=
    h.took.settles b o hf (by rw [h.host]; rfl) (by rw [h.host]; rfl)
  have hafter : afterBlock s = if k = 8 then .done else .padzero := by
    rw [afterBlock_eq, h.fin, h.padk]
    rfl
  rw [hafter] at hst
  exact ⟨t, ⟨n, hrun⟩, ⟨ht, by rw [hlen, h.len], hfin.trans h.fin, hcause.trans h.cause, hhost.trans h.host,
    by rw [hpadk, h.padk]⟩, hst⟩

/-- A byte before the length field leads to PADZERO, whether or not it fills the block. -/
theorem PaddingTo.byteBeforeLength (h : PaddingTo len p 0 s) {b : Byte}
    (hstep : step s = .next (appended b .padzero s h.took.fill_lt)) :
    ∃ t, Reaches s t ∧ PaddingTo len (p ++ [b]) 0 t ∧ t.st = .padzero := by
  obtain ⟨t, hrun, ht, htst⟩ := h.append b .padzero h.took.fill_lt
  exact ⟨t, (Reaches.of_step hstep).trans hrun, ht, by rw [htst, if_neg (by decide : (0 : Nat) ≠ 8), ite_self]⟩

/-- The marker byte. -/
theorem PaddingTo.marker (h : PaddingTo len p 0 s) (hst : s.st = .pad80) :
    ∃ t, Reaches s t ∧ PaddingTo len (p ++ [0x80]) 0 t ∧ t.st = .padzero :=
  h.byteBeforeLength (by
    rw [h.step_busy (by rw [State.ready, hst]; rfl), enabledMicro_pad80 hst, exec_pad80 hst h.took.fill_lt])

/-- A zero byte. -/
theorem PaddingTo.zero (h : PaddingTo len p 0 s) (hst : s.st = .padzero) (h56 : p.length % 64 ≠ 56) :
    ∃ t, Reaches s t ∧ PaddingTo len (p ++ [0x00]) 0 t ∧ t.st = .padzero :=
  h.byteBeforeLength (by
    rw [h.step_busy (by rw [State.ready, hst]; rfl), enabledMicro_padzero hst,
      exec_padzero hst (by rwa [h.took.fill]) h.took.fill_lt])

/-- Zero bytes, as long as the length is not 56 modulo 64. -/
theorem PaddingTo.zeros (h : PaddingTo len p 0 s) (hst : s.st = .padzero) {z : Nat}
    (h56 : ∀ z', z' < z → (p.length + z') % 64 ≠ 56) :
    ∃ t, Reaches s t ∧ PaddingTo len (p ++ List.replicate z 0x00) 0 t ∧ t.st = .padzero := by
  induction z with
  | zero => exact ⟨s, .refl s, by rwa [List.replicate_zero, List.append_nil], hst⟩
  | succ z ih =>
    obtain ⟨t, hrun, ht, htst⟩ := ih fun z' hz' => h56 z' (by omega)
    obtain ⟨u, hrun', hu, hust⟩ := ht.zero htst (by
      rw [List.length_append, List.length_replicate]
      exact h56 z (Nat.lt_succ_self z))
    exact ⟨u, hrun.trans hrun', by rwa [List.replicate_succ', ← List.append_assoc], hust⟩

/-- The step that finds `FILL = 56`. -/
theorem PaddingTo.zerosEnd (h : PaddingTo len p 0 s) (hst : s.st = .padzero) (h56 : p.length % 64 = 56) :
    ∃ t, Reaches s t ∧ PaddingTo len p 0 t ∧ t.st = .padlen := by
  have hstep : step s = .next { s with st := .padlen } := by
    rw [h.step_busy (by rw [State.ready, hst]; rfl), enabledMicro_padzero hst,
      exec_padzero_end hst (by rwa [h.took.fill])]
  exact ⟨_, .of_step hstep, ⟨⟨h.took.fill, h.took.tail, h.took.hash⟩, h.len, h.fin, h.cause, h.host, h.padk⟩, rfl⟩

/-- Byte `k` of the length field; the eighth ends in DONE. -/
theorem PaddingTo.lengthByte (h : PaddingTo len p k s) (hst : s.st = .padlen) (hk : k < 8)
    (h56 : p.length % 64 = 56 + k) :
    ∃ t, Reaches s t ∧ PaddingTo len (p ++ [lengthByte len k]) (k + 1) t ∧
      t.st = if k + 1 = 8 then .done else .padlen := by
  have hk' : s.padk.val < 8 := h.padk ▸ hk
  have hfill := h.took.fill
  have hcounted : PaddingTo len p (k + 1) (lengthByteCounted s hk') :=
    ⟨⟨h.took.fill, h.took.tail, h.took.hash⟩, h.len, h.fin, h.cause, h.host, congrArg (· + 1) h.padk⟩
  obtain ⟨t, hrun, ht, htst⟩ := hcounted.append (Machine.lengthByte len k) .padlen h.took.fill_lt
  have hstep :
      step s = .next (appended (Machine.lengthByte len k) .padlen (lengthByteCounted s hk') h.took.fill_lt) := by
    rw [h.step_busy (by rw [State.ready, hst]; rfl), enabledMicro_padlen hst, exec_padlen hst hk' h.took.fill_lt, h.len,
      h.padk]
  refine ⟨t, (Reaches.of_step hstep).trans hrun, ht, htst.trans ?_⟩
  have hfull : (lengthByteCounted s hk').fill.val + 1 = 64 ↔ k + 1 = 8 := by
    show s.fill.val + 1 = 64 ↔ _
    omega
  by_cases h8 : k + 1 = 8
  · rw [if_pos (hfull.2 h8), if_pos h8, if_pos h8]
  · rw [if_neg (mt hfull.1 h8), if_neg h8]

/-- The length field, by induction over its bytes. -/
theorem PaddingTo.lengthField (h : PaddingTo len p 0 s) (hst : s.st = .padlen) (h56 : p.length % 64 = 56) {k : Nat}
    (hk : k ≤ 8) :
    ∃ t, Reaches s t ∧ PaddingTo len (p ++ (List.range k).map (Machine.lengthByte len)) k t ∧
      t.st = if k = 8 then .done else .padlen := by
  induction k with
  | zero => exact ⟨s, .refl s, by rwa [List.range_zero, List.map_nil, List.append_nil], hst⟩
  | succ k ih =>
    obtain ⟨t, hrun, ht, htst⟩ := ih (by omega)
    rw [if_neg (by omega)] at htst
    obtain ⟨u, hrun', hu, hust⟩ := ht.lengthByte htst (by omega) (by
      rw [List.length_append, List.length_map, List.length_range]
      omega)
    exact ⟨u, hrun.trans hrun', by
      rwa [List.range_succ, List.map_append, List.map_singleton, ← List.append_assoc], hust⟩

end

/-- A whole number of blocks taken: the hash state is that of the blocks. -/
theorem Took.hash_of_blocks {s : State} {p : List Byte} {n : Nat} (h : Took s p) (hp : p.length = 64 * n) :
    s.h = compressBlocks p n := by
  rw [h.hash, hp, Nat.mul_div_cancel_left _ (by decide)]

/-- After FINAL the engine takes `Pad(m)` and ends in DONE with the hash state of its blocks. -/
theorem PaddingTo.done {s : State} {m : List Byte} (h : PaddingTo m.length m 0 s) (hst : s.st = .pad80)
    (hm : m.length ≤ Config.maxLength) :
    ∃ t, Reaches s t ∧ t.st = .done ∧ t.cause = .none ∧ t.h = finalHash m ∧ t.host = [] := by
  obtain ⟨t1, hrun1, h1, hst1⟩ := h.marker hst
  obtain ⟨t2, hrun2, h2, hst2⟩ := h1.zeros hst1 (z := zeroCount m.length) (by
    rw [length_snoc]
    exact fun _ hz => zeroCount_least hz)
  have h56 : (m ++ [0x80] ++ List.replicate (zeroCount m.length) 0x00).length % 64 = 56 := by
    rw [List.length_append, length_snoc, List.length_replicate]
    exact zeroCount_reaches_56 m.length
  obtain ⟨t3, hrun3, h3, hst3⟩ := h2.zerosEnd hst2 h56
  obtain ⟨t4, hrun4, h4, hst4⟩ := h3.lengthField hst3 h56 (Nat.le_refl 8)
  rw [← lenField_short hm] at h4
  exact ⟨t4, ((hrun1.trans hrun2).trans hrun3).trans hrun4, hst4, h4.cause,
    h4.took.hash_of_blocks (length_pad_eq_blocks m), h4.host⟩

end Sys2Proof.Machine
end

section
/-! SUPPORT. The engine computes MD5: INIT, the bytes of the message and FINAL, and the views of the digest
(41_sequencer.md R130; 43_accumulator_serializer.md R184, R186). -/

namespace Sys2Proof.Machine

section
variable {s : State} {p : List Byte}

/-- The held words PUSH of `bs`, with `rest` after them. -/
def heldPushes (bs : List Byte) (rest : List HostEvent) : List HostEvent :=
  bs.map (fun b => .hold (commandWord 2 b)) ++ rest

theorem step_held_command {w : CommandWord} {i : Instr} {rest : List HostEvent} (hr : s.ready = true)
    (hh : s.host = .hold w :: rest) (hd : decodeCommand w = .ok i) : step s = exec i { s with host := rest } := by
  rw [step_accepts hr (.inl hh), acceptWord_ok hd]

/-- The bytes of a message, by induction over them. -/
theorem Absorbed.pushes (h : Absorbed s p) {bs : List Byte} {w : CommandWord}
    (hh : s.host = heldPushes bs [.hold w]) (hp : (p ++ bs).length ≤ Config.maxLength) :
    ∃ t, Reaches s t ∧ Absorbed t (p ++ bs) ∧ t.host = [.hold w] := by
  induction bs generalizing s p with
  | nil => exact ⟨s, .refl s, by rwa [List.append_nil], hh⟩
  | cons b bs ih =>
    have hlt : p.length < Config.maxLength := by
      rw [List.length_append, List.length_cons] at hp
      omega
    have hheld : resetAsserted (heldPushes bs [.hold w]) = false ∧
        waiting (heldPushes bs [.hold w]) = heldPushes bs [.hold w] := by cases bs <;> exact ⟨rfl, rfl⟩
    obtain ⟨u, k, t, hu, -, hrun, ht, hthost⟩ := (h.with_host (heldPushes bs [.hold w])).push hlt b hheld.1 hheld.2
    have hstep : step s = .next u :=
      (step_held_command h.ready hh (pushWord_eq_commandWord b ▸ decodeCommand_pushWord b)).trans hu
    obtain ⟨v, hrun', hv, hvhost⟩ := ih ht hthost (by rwa [List.append_assoc])
    exact ⟨v, ((Reaches.of_step hstep).trans ⟨k, hrun⟩).trans hrun', by rwa [List.append_assoc] at hv, hvhost⟩

/-- FINAL starts the padding of the message. -/
theorem Absorbed.final (h : Absorbed s p) (hl : s.host = []) :
    PaddingTo p.length p 0 (respondDone { s with fin := true, st := .pad80 }) :=
  ⟨⟨h.fill, h.tail, h.hash⟩, h.len, rfl, h.cause, hl, h.padk⟩

/-- INIT, the bytes and FINAL. -/
theorem reaches_digest {m : List Byte} (hm : m.length ≤ Config.maxLength) (hr : s.ready = true)
    (hh : s.host = digestInputs m) :
    ∃ t, Reaches s t ∧ t.st = .done ∧ t.cause = .none ∧ t.h = finalHash m ∧ t.host = [] := by
  have hinit : step s = .next (initialised { s with host := heldPushes m [.hold 0x3000] }) :=
    (step_held_command (i := .init) hr hh rfl).trans (exec_init hr)
  obtain ⟨t, hrun, ht, hthost⟩ := (absorbed_initialised { s with host := heldPushes m [.hold 0x3000] }).pushes rfl hm
  have hfinal : step t = .next (respondDone { t with host := [], fin := true, st := .pad80 }) :=
    (step_held_command (i := .final) ht.ready hthost rfl).trans (exec_final_absorb (s := { t with host := [] }) ht.st)
  obtain ⟨u, hrun', hu⟩ := ((ht.with_host []).final rfl).done rfl hm
  exact ⟨u, ((Reaches.of_step hinit).trans hrun).trans ((Reaches.of_step hfinal).trans hrun'), hu⟩

/-! ### The views of the digest -/

theorem exec_rdb_done {k : Byte} (hk : k.toNat ≤ maxDigestIndex) (hst : s.st = .done) :
    exec (.rdb k) s = .next (respond ⟨false, (digestByte s.h k.toNat).setWidth 16⟩ s) := indexedRead_done hk hst _

theorem exec_rdh_done {k : Byte} (hk : k.toNat ≤ maxHexIndex) (hst : s.st = .done) :
    exec (.rdh k) s = .next (respond ⟨false, (hexChar s.h k.toNat).setWidth 16⟩ s) := indexedRead_done hk hst _

theorem md5_getD (m : List Byte) {i : Nat} (hi : i < 16) : (md5 m).getD i 0 = digestByte (finalHash m) i := by
  rw [md5, List.getD_eq_getElem?_getD, getElem?_serialize _ hi, Option.getD_some]

theorem md5hex_getD (m : List Byte) {j : Nat} (hj : j < 32) : (md5hex m).getD j 0 = hexChar (finalHash m) j := by
  rw [md5hex, md5, hexOf_serialize, List.getD_eq_getElem?_getD, List.getElem?_map, List.getElem?_range hj,
    Option.map_some, Option.getD_some]

end

end Sys2Proof.Machine

namespace Sys2Proof.Proofs

open Sys2Proof.Machine

/-- Settles O53: by induction over the bytes of the message and of its padding. -/
theorem engineComputesMd5 : Obligations.EngineComputesMd5 := by
  intro m s hm hr hh
  obtain ⟨t, ⟨k, hrun⟩, hst, hcause, hhash, hhost⟩ := reaches_digest hm hr hh
  refine ⟨k, t, hrun, hst, hcause, hhash, hhost, fun i hi => ?_, fun j hj => ?_⟩
  · have hi' : (BitVec.ofNat 8 i).toNat = i := by rw [BitVec.toNat_ofNat]; omega
    rw [exec_rdb_done (by rw [hi', maxDigestIndex]; omega) hst, hi', md5_getD m hi, ← hhash]
    rfl
  · have hj' : (BitVec.ofNat 8 j).toNat = j := by rw [BitVec.toNat_ofNat]; omega
    rw [exec_rdh_done (by rw [hj', maxHexIndex]; omega) hst, hj', md5hex_getD m hj, ← hhash]
    rfl

end Sys2Proof.Proofs
end
